-- ==== Sys2Proof/Word.lean ====
section
/-! DEFINITION. The word types of the CORE: every architectural value is an unsigned number of a stated width
(00_scope.md R8). No value of this hardware is signed. -/

namespace Sys2Proof

/-- u8: a general register, a timer, a memory byte, an immediate `kk`. -/
abbrev Byte := BitVec 8

/-- u16: `I`, `PC`, a stack slot, `IR`, an instruction word. -/
abbrev Word := BitVec 16

/-- u12: the address operand `nnn`. -/
abbrev Addr12 := BitVec 12

/-- A 4-bit field: the register numbers `x` and `y`, the sprite height `n`. -/
abbrev Nibble := BitVec 4

end Sys2Proof
end

