-- ==== Sys2Proof/Config.lean ====
section
/-! DEFINITION. What an implementation fixes (00_scope.md R5) and the one free value, the random byte (10_state.md R36).
The OPEN parameters SYS_MODE and FONT_BASE are fields of State, so that every claim about all states holds for
every value of them; the OPEN INIT_* values and FONT_DATA are arguments of the reset event. -/

namespace Sys2Proof

/-- SYS_MODE: what a SYS word does (00_scope.md R5, 41_control_flow.md R101). -/
inductive SysMode where
  /-- SYS raises UnknownOpcode: the spec's default (D5). -/
  | fault
  /-- SYS does nothing but advance PC. -/
  | nop
  deriving DecidableEq, Repr

/-- MEM_SIZE: valid addresses are 0 to 4095 (20_memory.md R50). -/
def Config.memSize : Nat := 4096

/-- PROGRAM_BASE (00_scope.md R5, D1). DESIGN CHOICE of the spec, log 1. -/
def Config.programBase : Nat := 0x200

/-- GLYPH_SIZE in bytes (00_scope.md R5, D20). DESIGN CHOICE of the spec, log 3. -/
def Config.glyphSize : Nat := 5

/-- FONT_BASE ranges over the values R5 allows: FONT_BASE + 16 × GLYPH_SIZE ≤ PROGRAM_BASE, so 0 to 0x1B0 (D2, log 2). -/
abbrev FontBase := Fin 0x1B1

/-- FONT_BASE of `State.reset`: the lowest address, as R57 reserves "the lowest addresses". DESIGN CHOICE, log 2. -/
def Config.resetFontBase : FontBase := 0

/-- The glyphs 0 to 7 of the conventional font (93_implementation_defined.md G5). -/
def Config.glyphs0to7 : List Byte :=
  [0xF0, 0x90, 0x90, 0x90, 0xF0] ++ [0x20, 0x60, 0x20, 0x20, 0x70] ++
  [0xF0, 0x10, 0xF0, 0x80, 0xF0] ++ [0xF0, 0x10, 0xF0, 0x10, 0xF0] ++
  [0x90, 0x90, 0xF0, 0x10, 0x10] ++ [0xF0, 0x80, 0xF0, 0x10, 0xF0] ++
  [0xF0, 0x80, 0xF0, 0x90, 0xF0] ++ [0xF0, 0x10, 0x20, 0x40, 0x40]

/-- The glyphs 8 to F of the conventional font (93_implementation_defined.md G5). -/
def Config.glyphs8toF : List Byte :=
  [0xF0, 0x90, 0xF0, 0x90, 0xF0] ++ [0xF0, 0x90, 0xF0, 0x10, 0xF0] ++
  [0xF0, 0x90, 0xF0, 0x90, 0x90] ++ [0xE0, 0x90, 0xE0, 0x90, 0xE0] ++
  [0xF0, 0x80, 0x80, 0x80, 0xF0] ++ [0xE0, 0x90, 0x90, 0x90, 0xE0] ++
  [0xF0, 0x80, 0xF0, 0x80, 0xF0] ++ [0xF0, 0x80, 0xF0, 0x80, 0x80]

/-- FONT_DATA of `State.reset`: the conventional font, which 93_implementation_defined.md G5 lets a model use.
DESIGN CHOICE, log 4. -/
def Config.fontBytes : List Byte := Config.glyphs0to7 ++ Config.glyphs8toF

/-- The value of the k-th random draw: a FREE VALUE without a body, so no claim can rest on any law of the generator
(10_state.md R36, D22, log 9). DESIGN CHOICE of form; safe. -/
opaque Config.randomByte : Nat → Byte

end Sys2Proof
end

