-- ==== Sys2Proof/Syntax.lean ====
section
/-! DEFINITION. The instructions: one constructor per row of the opcode map (30_encoding.md R75), in its order,
carrying the fields its row names (R71). -/

namespace Sys2Proof

/-- An instruction with its decoded fields. Register fields `x`, `y` and the count `n` are 4 bits, `kk` is 8 bits,
`nnn` is 12 bits; none is sign-extended or scaled (30_encoding.md R72). -/
inductive Instr where
  /-- 0nnn, SYS nnn (R101) -/
  | sys (nnn : Addr12)
  /-- 00E0, CLS (R151) -/
  | cls
  /-- 00EE, RET (R102) -/
  | ret
  /-- 1nnn, JP nnn (R103) -/
  | jp (nnn : Addr12)
  /-- 2nnn, CALL nnn (R104) -/
  | call (nnn : Addr12)
  /-- 3xkk, SE Vx, kk (R105) -/
  | seImm (x : Nibble) (kk : Byte)
  /-- 4xkk, SNE Vx, kk (R106) -/
  | sneImm (x : Nibble) (kk : Byte)
  /-- 5xy_, SE Vx, Vy (R107) -/
  | seReg (x y : Nibble)
  /-- 6xkk, LD Vx, kk (R121) -/
  | ldImm (x : Nibble) (kk : Byte)
  /-- 7xkk, ADD Vx, kk (R122) -/
  | addImm (x : Nibble) (kk : Byte)
  /-- 8xy0, LD Vx, Vy (R123) -/
  | ldReg (x y : Nibble)
  /-- 8xy1, OR Vx, Vy (R124) -/
  | orReg (x y : Nibble)
  /-- 8xy2, AND Vx, Vy (R125) -/
  | andReg (x y : Nibble)
  /-- 8xy3, XOR Vx, Vy (R126) -/
  | xorReg (x y : Nibble)
  /-- 8xy4, ADD Vx, Vy (R127) -/
  | addReg (x y : Nibble)
  /-- 8xy5, SUB Vx, Vy (R128) -/
  | subReg (x y : Nibble)
  /-- 8x_6, SHR Vx (R129) -/
  | shr (x : Nibble)
  /-- 8xy7, SUBN Vx, Vy (R130) -/
  | subnReg (x y : Nibble)
  /-- 8x_E, SHL Vx (R131) -/
  | shl (x : Nibble)
  /-- 9xy_, SNE Vx, Vy (R108) -/
  | sneReg (x y : Nibble)
  /-- Annn, LD I, nnn (R140) -/
  | ldI (nnn : Addr12)
  /-- Bnnn, JP V0, nnn (R109) -/
  | jpV0 (nnn : Addr12)
  /-- Cxkk, RND Vx, kk (R132) -/
  | rnd (x : Nibble) (kk : Byte)
  /-- Dxyn, DRW Vx, Vy, n (R152) -/
  | drw (x y n : Nibble)
  /-- Ex9E, SKP Vx (R160) -/
  | skp (x : Nibble)
  /-- ExA1, SKNP Vx (R161) -/
  | sknp (x : Nibble)
  /-- Fx07, LD Vx, DT (R162) -/
  | ldVxDt (x : Nibble)
  /-- Fx0A, LD Vx, K (R163) -/
  | ldVxK (x : Nibble)
  /-- Fx15, LD DT, Vx (R164) -/
  | ldDtVx (x : Nibble)
  /-- Fx18, LD ST, Vx (R165) -/
  | ldStVx (x : Nibble)
  /-- Fx1E, ADD I, Vx (R141) -/
  | addI (x : Nibble)
  /-- Fx29, LD F, Vx (R142) -/
  | ldF (x : Nibble)
  /-- Fx33, LD B, Vx (R143) -/
  | ldB (x : Nibble)
  /-- Fx55, LD [I], Vx (R144) -/
  | ldMemVx (x : Nibble)
  /-- Fx65, LD Vx, [I] (R145) -/
  | ldVxMem (x : Nibble)
  deriving DecidableEq, Repr

end Sys2Proof
end

