-- ==== Sys2Proof/WellFormed.lean ====
section
/-! DEFINITION. Which instructions exist as words. The field widths are in the types; the one check left is that the
words 0x00E0 and 0x00EE are CLS and RET, so SYS never carries those addresses (30_encoding.md R75 row 1, R76). -/

namespace Sys2Proof

/-- `i` is the meaning of some word. -/
def Instr.wellFormed : Instr → Bool
  | .sys nnn => nnn != 0x0E0 && nnn != 0x0EE
  | .cls | .ret | .jp _ | .call _ => true
  | .seImm _ _ | .sneImm _ _ | .seReg _ _ => true
  | .ldImm _ _ | .addImm _ _ | .ldReg _ _ | .orReg _ _ | .andReg _ _ | .xorReg _ _ => true
  | .addReg _ _ | .subReg _ _ | .shr _ | .subnReg _ _ | .shl _ => true
  | .sneReg _ _ | .ldI _ | .jpV0 _ | .rnd _ _ | .drw _ _ _ => true
  | .skp _ | .sknp _ | .ldVxDt _ | .ldVxK _ | .ldDtVx _ | .ldStVx _ => true
  | .addI _ | .ldF _ | .ldB _ | .ldMemVx _ | .ldVxMem _ => true

/-- The well-formedness predicate claims are stated with. -/
abbrev WellFormed (i : Instr) : Prop := i.wellFormed = true

end Sys2Proof
end

