-- ==== Sys2Proof/Decode.lean ====
section
/-! DEFINITION. Decoding and encoding (30_encoding.md R70 to R82). Decode is total: every word gives an instruction or
an unknown-opcode condition that says which family refused it (R74, R82). -/

namespace Sys2Proof

/-- Why bytes decode to no instruction (30_encoding.md R78 to R80). -/
inductive DecodeError where
  /-- 8 family: the low nibble selects no operation (R78). -/
  | unknown8 (low : Nibble)
  /-- E family: the low byte selects no operation (R79). -/
  | unknownE (low : Byte)
  /-- F family: the low byte selects no operation (R80). -/
  | unknownF (low : Byte)
  /-- Fewer than the two bytes of an instruction word (R70); no fetch of this machine gives this. -/
  | truncated
  deriving DecidableEq, Repr

/-- The high nibble w[15:12] (R70). -/
def opField (w : Word) : Nibble := w.extractLsb' 12 4

/-- nnn = w[11:0] (R71). -/
def nnnField (w : Word) : Addr12 := w.extractLsb' 0 12

/-- x = w[11:8] (R71). -/
def xField (w : Word) : Nibble := w.extractLsb' 8 4

/-- y = w[7:4] (R71). -/
def yField (w : Word) : Nibble := w.extractLsb' 4 4

/-- kk = w[7:0] (R71). -/
def kkField (w : Word) : Byte := w.extractLsb' 0 8

/-- n = w[3:0] (R71). -/
def nField (w : Word) : Nibble := w.extractLsb' 0 4

/-- The 8 family, selected by the low nibble (R78). The y field of SHR and SHL is ignored (R73). -/
def decode8 (w : Word) : Except DecodeError Instr :=
  match (nField w).toNat with
  | 0x0 => .ok (.ldReg (xField w) (yField w))
  | 0x1 => .ok (.orReg (xField w) (yField w))
  | 0x2 => .ok (.andReg (xField w) (yField w))
  | 0x3 => .ok (.xorReg (xField w) (yField w))
  | 0x4 => .ok (.addReg (xField w) (yField w))
  | 0x5 => .ok (.subReg (xField w) (yField w))
  | 0x6 => .ok (.shr (xField w))
  | 0x7 => .ok (.subnReg (xField w) (yField w))
  | 0xE => .ok (.shl (xField w))
  | _ => .error (.unknown8 (nField w))

/-- The E family, selected by the low byte (R79). -/
def decodeE (w : Word) : Except DecodeError Instr :=
  match (kkField w).toNat with
  | 0x9E => .ok (.skp (xField w))
  | 0xA1 => .ok (.sknp (xField w))
  | _ => .error (.unknownE (kkField w))

/-- The F family, selected by the low byte (R80). -/
def decodeF (w : Word) : Except DecodeError Instr :=
  match (kkField w).toNat with
  | 0x07 => .ok (.ldVxDt (xField w))
  | 0x0A => .ok (.ldVxK (xField w))
  | 0x15 => .ok (.ldDtVx (xField w))
  | 0x18 => .ok (.ldStVx (xField w))
  | 0x1E => .ok (.addI (xField w))
  | 0x29 => .ok (.ldF (xField w))
  | 0x33 => .ok (.ldB (xField w))
  | 0x55 => .ok (.ldMemVx (xField w))
  | 0x65 => .ok (.ldVxMem (xField w))
  | _ => .error (.unknownF (kkField w))

/-- The 0 family: CLS and RET are whole words, every other word is SYS (R76, D6). -/
def decode0 (w : Word) : Instr :=
  if w = 0x00E0 then .cls else if w = 0x00EE then .ret else .sys (nnnField w)

/-- Decode an instruction word (R74). w[3:0] is ignored in the 5 and 9 families (R77). -/
def decode (w : Word) : Except DecodeError Instr :=
  match (opField w).toNat with
  | 0x0 => .ok (decode0 w)
  | 0x1 => .ok (.jp (nnnField w))
  | 0x2 => .ok (.call (nnnField w))
  | 0x3 => .ok (.seImm (xField w) (kkField w))
  | 0x4 => .ok (.sneImm (xField w) (kkField w))
  | 0x5 => .ok (.seReg (xField w) (yField w))
  | 0x6 => .ok (.ldImm (xField w) (kkField w))
  | 0x7 => .ok (.addImm (xField w) (kkField w))
  | 0x8 => decode8 w
  | 0x9 => .ok (.sneReg (xField w) (yField w))
  | 0xA => .ok (.ldI (nnnField w))
  | 0xB => .ok (.jpV0 (nnnField w))
  | 0xC => .ok (.rnd (xField w) (kkField w))
  | 0xD => .ok (.drw (xField w) (yField w) (nField w))
  | 0xE => decodeE w
  | _ => decodeF w

/-- The word of two bytes, the first being the high byte (20_memory.md R53). -/
def wordOfBytes (hi lo : Byte) : Word := hi ++ lo

/-- The high byte of a word: the byte at the lower address (20_memory.md R53). -/
def highByte (w : Word) : Byte := w.extractLsb' 8 8

/-- The low byte of a word: the byte at the higher address (20_memory.md R53). -/
def lowByte (w : Word) : Byte := w.extractLsb' 0 8

/-- Decode the instruction at the head of a byte string, with the bytes after it. Every instruction is two bytes (R83). -/
def decodeBytes : List Byte → Except DecodeError (Instr × List Byte)
  | hi :: lo :: rest =>
    match decode (wordOfBytes hi lo) with
    | .ok i => .ok (i, rest)
    | .error e => .error e
  | _ => .error .truncated

/-- A word of the address form: high nibble and nnn (R71's picture). -/
def wordNnn (op : Nat) (nnn : Addr12) : Word := BitVec.ofNat 16 (0x1000 * op + nnn.toNat)

/-- A word of the register-immediate form: high nibble, x and kk. -/
def wordXkk (op : Nat) (x : Nibble) (kk : Byte) : Word :=
  BitVec.ofNat 16 (0x1000 * op + 0x100 * x.toNat + kk.toNat)

/-- A word of the register-register form: high nibble, x, y and the low nibble. -/
def wordXyn (op : Nat) (x y n : Nibble) : Word :=
  BitVec.ofNat 16 (0x1000 * op + 0x100 * x.toNat + 0x10 * y.toNat + n.toNat)

/-- The word of an instruction, from the pattern column of R75. Ignored fields are encoded as 0 (R84). -/
def encode : Instr → Word
  | .sys nnn => wordNnn 0x0 nnn
  | .cls => 0x00E0
  | .ret => 0x00EE
  | .jp nnn => wordNnn 0x1 nnn
  | .call nnn => wordNnn 0x2 nnn
  | .seImm x kk => wordXkk 0x3 x kk
  | .sneImm x kk => wordXkk 0x4 x kk
  | .seReg x y => wordXyn 0x5 x y 0
  | .ldImm x kk => wordXkk 0x6 x kk
  | .addImm x kk => wordXkk 0x7 x kk
  | .ldReg x y => wordXyn 0x8 x y 0x0
  | .orReg x y => wordXyn 0x8 x y 0x1
  | .andReg x y => wordXyn 0x8 x y 0x2
  | .xorReg x y => wordXyn 0x8 x y 0x3
  | .addReg x y => wordXyn 0x8 x y 0x4
  | .subReg x y => wordXyn 0x8 x y 0x5
  | .shr x => wordXyn 0x8 x 0 0x6
  | .subnReg x y => wordXyn 0x8 x y 0x7
  | .shl x => wordXyn 0x8 x 0 0xE
  | .sneReg x y => wordXyn 0x9 x y 0
  | .ldI nnn => wordNnn 0xA nnn
  | .jpV0 nnn => wordNnn 0xB nnn
  | .rnd x kk => wordXkk 0xC x kk
  | .drw x y n => wordXyn 0xD x y n
  | .skp x => wordXkk 0xE x 0x9E
  | .sknp x => wordXkk 0xE x 0xA1
  | .ldVxDt x => wordXkk 0xF x 0x07
  | .ldVxK x => wordXkk 0xF x 0x0A
  | .ldDtVx x => wordXkk 0xF x 0x15
  | .ldStVx x => wordXkk 0xF x 0x18
  | .addI x => wordXkk 0xF x 0x1E
  | .ldF x => wordXkk 0xF x 0x29
  | .ldB x => wordXkk 0xF x 0x33
  | .ldMemVx x => wordXkk 0xF x 0x55
  | .ldVxMem x => wordXkk 0xF x 0x65

/-- The bytes of a word as the hardware stores them, the high byte at the lower address (20_memory.md R53). -/
def bytesOfWord (w : Word) : List Byte := [highByte w, lowByte w]

/-- The 16 bits a table word of `nbits` bits stands for: the bits above `nbits` are 0. -/
def tableWord (nbits w : Nat) : Word := BitVec.ofNat 16 (w % 2 ^ nbits)

/-- What the decoder reads from an instruction whose bits the opcode table gives as `w`: the word is laid out in memory
order, high byte first, and decoded. -/
def decodeTableWord (nbits w : Nat) : Option Instr :=
  match decodeBytes (bytesOfWord (tableWord nbits w)) with
  | .ok (i, _) => some i
  | .error _ => none

end Sys2Proof
end

