-- ==== Sys2Proof/Machine/State.lean ====
section
/-! DEFINITION. The state of the CORE as plain data (10_state.md), the fault record (60_exceptions.md R171), the external
events (10_state.md R41), and the state after reset (R37). -/

namespace Sys2Proof.Machine

open Sys2Proof

/-- The general registers V[0]..V[15] (R20). -/
abbrev Regs := Vector Byte 16

/-- The call-stack slots S[0]..S[15] (R24). -/
abbrev Stack := Vector Word 16

/-- The key states K[0]..K[15], true when pressed (R28). -/
abbrev Keys := Vector Bool 16

/-- The framebuffer: 32 rows of 64 cells, `fb[y][x]` true when on (R29). -/
abbrev Framebuffer := Vector (Vector Bool 64) 32

/-- Memory as (address, byte) pairs in canonical form: addresses strictly rising and below 4096, and no entry equal to
what an unlisted address reads as (`Memory.unlisted`, `Memory.wf` in Machine/Ops.lean). -/
abbrev Memory := List Host.Cell

/-- The accesses a bounds violation names (60_exceptions.md R171). -/
inductive Access where
  | fetch | sprite | bcd | store | load | keypad
  deriving DecidableEq, Repr

/-- What a fault record says happened: the kind and info of 60_exceptions.md R171. -/
inductive FaultCause where
  /-- The access and the lowest out-of-range address, or the key index for `keypad` (R172). -/
  | boundsViolation (access : Access) (addr : Nat)
  /-- CALL at SP = 16; carries SP (R173). -/
  | stackOverflow (sp : Nat)
  /-- RET at SP = 0; carries SP (R174). -/
  | stackUnderflow (sp : Nat)
  /-- A word with no operation, or SYS under SYS_MODE = fault; carries IR (R175). -/
  | unknownOpcode (ir : Word)
  deriving DecidableEq, Repr

/-- A fault record: the cause and the address the faulting instruction was fetched from, or the PC of a failed fetch
(60_exceptions.md R171). -/
structure FaultRecord where
  cause : FaultCause
  pc0 : Word
  deriving DecidableEq, Repr

/-- What the host supplies to `reset`: FONT_DATA and the OPEN INIT_* values (10_state.md R37, R41). `initM` is given as
cells over the unlisted bytes, so any contents can be named (log 29). -/
structure Launch where
  initV : Regs
  initI : Word
  initS : Stack
  initDT : Byte
  initST : Byte
  initFB : Framebuffer
  initK : Keys
  initM : Memory
  initIR : Word
  fontData : Vector Byte 80
  deriving DecidableEq, Repr

/-- The external events (10_state.md R41). -/
inductive Event where
  /-- The host constructs a new machine state (70_reset_and_hazards.md R200). -/
  | reset (l : Launch)
  /-- The program loader copies an image (70_reset_and_hazards.md R203). -/
  | load (image : List Byte)
  /-- The timer driver ticks (60_exceptions.md R183). -/
  | tick
  /-- The keypad driver sets the keys (60_exceptions.md R185). -/
  | keys (k : Keys)
  /-- The display driver reads FB (60_exceptions.md R186). -/
  | display
  /-- The sound driver reads ST (10_state.md R41). -/
  | sound
  deriving DecidableEq, Repr

/-- One move: the driver invokes a cycle, or an external event happens (00_scope.md R6). -/
inductive Turn where
  | cycle
  | external (e : Event)
  deriving DecidableEq, Repr

/-- Where a boot stands (70_reset_and_hazards.md R205). Only a load tells the phases apart: the loader copies one image
before the first cycle (60_exceptions.md R187, 20_memory.md R61). -/
inductive BootPhase where
  /-- Constructed by `reset`; no image is accepted yet and no cycle has been invoked. -/
  | constructed
  /-- An image is accepted; no cycle has been invoked. -/
  | loaded
  /-- A cycle has been invoked since the last `reset`. -/
  | running
  deriving DecidableEq, Repr

/-- The machine state. The first twelve fields are the spec's; the last five are the model's own. -/
structure State where
  /-- V[0]..V[15]; V[15] is VF (R20, R21) -/
  v : Regs
  /-- The index register I (R22) -/
  i : Word
  /-- The program counter PC (R23) -/
  pc : Word
  /-- The stack pointer SP, the next free slot, 0 to 16 (R24, R25) -/
  sp : Fin 17
  /-- The call stack S (R24) -/
  stack : Stack
  /-- The delay timer DT (R26) -/
  dt : Byte
  /-- The sound timer ST (R27) -/
  st : Byte
  /-- The keypad K (R28) -/
  keys : Keys
  /-- The framebuffer FB (R29) -/
  fb : Framebuffer
  /-- Memory M (R30) -/
  mem : Memory
  /-- The current instruction IR (R31) -/
  ir : Word
  /-- The fault record, if the core has faulted (R33) -/
  fault : Option FaultRecord
  /-- MODEL'S OWN: the OPEN parameter SYS_MODE, fixed for a run (00_scope.md R5, log 6) -/
  sysMode : SysMode
  /-- MODEL'S OWN: the OPEN parameter FONT_BASE, fixed for a run (00_scope.md R5, log 2) -/
  fontBase : FontBase
  /-- MODEL'S OWN: how many random bytes have been drawn (10_state.md R36, log 9) -/
  draws : Nat
  /-- MODEL'S OWN: the coming moves, oldest first; when empty, cycles follow one another (10_state.md R41, log 11) -/
  turns : List Turn
  /-- MODEL'S OWN: where the boot stands, so that no load follows the first cycle (70_reset_and_hazards.md R205, log 13) -/
  boot : BootPhase
  deriving DecidableEq, Repr

/-- Why a step has no next state. -/
inductive Fault where
  /-- Raised by `cycle` alone, when a cycle is asked of a core whose fault record is set: it has no step until `reset`
  (40_dispatcher.md R95). SAFE: the spec gives no step there. The record is the one latched by the cycle that faulted,
  which itself was a next state (60_exceptions.md R176). -/
  | coreStopped (r : FaultRecord)
  /-- Raised by `takeEvent` alone, when a load is listed after an image was accepted or after the first cycle: the spec has
  no such move (70_reset_and_hazards.md R205: "no load occurs after the first cycle"; log 13). SAFE: the spec gives no step
  there, and no fault record is set, since events never fault (60_exceptions.md R178). No instruction raises it. -/
  | loadAfterBoot
  deriving DecidableEq, Repr

/-- Why an instruction has no meaning. -/
inductive Refusal where
  /-- Raised by an arm of `exec` whose instruction has no meaning yet; no arm of this model raises it. SAFE. -/
  | notModelled (mnemonic : String)
  deriving DecidableEq, Repr

/-- What a cycle or a step answers. -/
abbrev Result := Host.Outcome State Fault Refusal

/-- The machine right after reset (10_state.md R37): PC at PROGRAM_BASE, SP = 0, no fault. Every OPEN INIT_* value is 0,
memory lists nothing (the font and zeros are what unlisted addresses read as), SYS_MODE and FONT_BASE are the values
logs 6 and 2 name. DESIGN CHOICE for the OPEN values, logs 2 and 4 to 7. -/
def State.reset : State where
  v := Vector.replicate 16 0
  i := 0
  pc := BitVec.ofNat 16 Config.programBase
  sp := 0
  stack := Vector.replicate 16 0
  dt := 0
  st := 0
  keys := Vector.replicate 16 false
  fb := Vector.replicate 32 (Vector.replicate 64 false)
  mem := []
  ir := 0
  fault := none
  sysMode := .fault
  fontBase := Config.resetFontBase
  draws := 0
  turns := []
  boot := .constructed

end Sys2Proof.Machine
end

