-- ==== Sys2Proof/Machine/Ops.lean ====
section
/-! DEFINITION. The named operations over memory and registers (00_scope.md R10), the range check, TAKING A FAULT as one
shared operation, and the control-flow primitives. The hardware has no return from a fault: only the reset event clears
the record (60_exceptions.md R181), see Machine/Events.lean. -/

namespace Sys2Proof.Machine

open Sys2Proof

/-! ### Memory (20_memory.md) -/

/-- What an address with no listed cell reads as: FONT_DATA at FONT_BASE as `State.reset` has them, and 0 elsewhere
(10_state.md R37, logs 4 and 5). -/
def Memory.unlisted (a : Nat) : Byte :=
  if a < Config.resetFontBase.val then 0 else Config.fontBytes.getD (a - Config.resetFontBase.val) 0

/-- M[a], for one byte (20_memory.md R50, R56). -/
def Memory.read : Memory → Nat → Byte
  | [], a => Memory.unlisted a
  | (c, d) :: rest, a => if c = a then d else Memory.read rest a

/-- The cells but those of address `a`. -/
def Memory.erase : Memory → Nat → Memory
  | [], _ => []
  | (c, d) :: rest, a => if c = a then Memory.erase rest a else (c, d) :: Memory.erase rest a

/-- The cells with one more, put before the first cell of a higher address. -/
def Memory.insert : Memory → Nat → Byte → Memory
  | [], a, b => [(a, b)]
  | (c, d) :: rest, a, b => if a < c then (a, b) :: (c, d) :: rest else (c, d) :: Memory.insert rest a b

/-- MemWrite(a, 1, b): M[a] <- b (00_scope.md R10), keeping the canonical form. -/
def Memory.write (m : Memory) (a : Nat) (b : Byte) : Memory :=
  if b = Memory.unlisted a then Memory.erase m a else Memory.insert (Memory.erase m a) a b

/-- Byte writes at `a`, `a + 1`, … in increasing address order. -/
def Memory.writeBytes : Memory → Nat → List Byte → Memory
  | m, _, [] => m
  | m, a, b :: rest => Memory.writeBytes (Memory.write m a b) (a + 1) rest

/-- MemRead(a, 2): the byte at the lower address is the high byte (20_memory.md R53). -/
def Memory.readWord (m : Memory) (a : Nat) : Word := wordOfBytes (Memory.read m a) (Memory.read m (a + 1))

/-- The cells from address `lo` on are in canonical form. -/
def Memory.wfFrom : Nat → Memory → Bool
  | _, [] => true
  | lo, (a, b) :: rest =>
    decide (lo ≤ a) && decide (a < Config.memSize) && decide (b ≠ Memory.unlisted a) && Memory.wfFrom (a + 1) rest

/-- Canonical form: addresses strictly rising and below 4096, no cell equal to what its address reads as unlisted. -/
def Memory.wf (m : Memory) : Bool := Memory.wfFrom 0 m

/-- CheckRange(addr, n): the lowest address of 4096 or more among `addr .. addr + n − 1`, if there is one. The sum is
exact (00_scope.md R10, 20_memory.md R51, log 17). -/
def checkRange (addr n : Nat) : Option Nat :=
  if n = 0 ∨ addr + n ≤ Config.memSize then none else some (max addr Config.memSize)

/-! ### Registers -/

/-- VF, the flag register, is V[15] (10_state.md R21). -/
def vf : Nibble := 15

/-- V[x] in a register file. -/
def regGet (v : Regs) (x : Nibble) : Byte := v[x.toNat]'x.isLt

/-- The register file after V[x] <- b. -/
def regSet (v : Regs) (x : Nibble) (b : Byte) : Regs := v.set x.toNat b x.isLt

/-- V[x] (10_state.md R20). -/
def State.readV (s : State) (x : Nibble) : Byte := regGet s.v x

/-- V[x] <- b (10_state.md R20). -/
def State.writeV (s : State) (x : Nibble) (b : Byte) : State := { s with v := regSet s.v x b }

/-- All sixteen general registers at once. -/
def State.writeRegs (s : State) (v : Regs) : State := { s with v := v }

/-- I <- w (10_state.md R22). -/
def State.writeI (s : State) (w : Word) : State := { s with i := w }

/-- PC <- w (10_state.md R23). -/
def State.writePc (s : State) (w : Word) : State := { s with pc := w }

/-- DT <- b (10_state.md R26). -/
def State.writeDt (s : State) (b : Byte) : State := { s with dt := b }

/-- ST <- b (10_state.md R27). -/
def State.writeSt (s : State) (b : Byte) : State := { s with st := b }

/-- K <- k: the keypad driver alone writes it (10_state.md R28). -/
def State.writeKeys (s : State) (k : Keys) : State := { s with keys := k }

/-- FB <- f (10_state.md R29). -/
def State.writeFb (s : State) (f : Framebuffer) : State := { s with fb := f }

/-- M <- m (10_state.md R30). -/
def State.writeMem (s : State) (m : Memory) : State := { s with mem := m }

/-- IR <- w (10_state.md R31). -/
def State.writeIr (s : State) (w : Word) : State := { s with ir := w }

/-- One more random byte has been drawn (10_state.md R36). -/
def State.countDraw (s : State) : State := { s with draws := s.draws + 1 }

/-- The coming moves (log 11). -/
def State.writeTurns (s : State) (ts : List Turn) : State := { s with turns := ts }

/-- Where the boot stands (70_reset_and_hazards.md R205, log 13). -/
def State.writeBoot (s : State) (b : BootPhase) : State := { s with boot := b }

/-- A cycle is invoked, with `ts` the moves after it: from here on no image is loaded (70_reset_and_hazards.md R205). -/
def State.beginCycle (s : State) (ts : List Turn) : State := (s.writeTurns ts).writeBoot .running

/-! ### Taking a fault (60_exceptions.md R170 to R181) -/

/-- TAKING A FAULT: the record is set and nothing else changes; control goes nowhere (R171, R180). `pc0` is the address
of the faulting instruction. -/
def State.latchFault (s : State) (pc0 : Word) (c : FaultCause) : State :=
  { s with fault := some { cause := c, pc0 := pc0 } }

/-- `raise F(info)` in the execute phase, where PC is pc0 + 2 modulo 2^16, so pc0 is PC − 2 (40_dispatcher.md R97). -/
def State.raise (s : State) (c : FaultCause) : State := s.latchFault (s.pc - 2) c

/-- Run `body` after CheckRange(addr, n, acc): an out-of-range access raises BoundsViolation and `body` has no effect
(00_scope.md R10, 60_exceptions.md R172). -/
def guardRange (acc : Access) (addr n : Nat) (s : State) (body : State → State) : Result :=
  match checkRange addr n with
  | some a => .next (s.raise (.boundsViolation acc a))
  | none => .next (body s)

/-! ### Control flow -/

/-- The skip primitive: PC <- trunc_16(PC + 2), with no check (41_control_flow.md R100, log 22). -/
def State.skip (s : State) : State := s.writePc (s.pc + 2)

/-- Skip if the condition holds (41_control_flow.md R100). -/
def State.skipIf (s : State) (c : Bool) : State := if c then s.skip else s

/-- CALL's push: S[SP] <- PC, SP <- SP + 1; StackOverflow at SP = 16 with nothing written (10_state.md R24,
41_control_flow.md R104). `body` runs after the push. -/
def pushPc (s : State) (body : State → State) : Result :=
  if h : s.sp.val < 16 then
    .next (body { s with stack := s.stack.set s.sp.val s.pc h, sp := ⟨s.sp.val + 1, by omega⟩ })
  else .next (s.raise (.stackOverflow s.sp.val))

/-- RET's pop: SP <- SP − 1, PC <- S[SP]; StackUnderflow at SP = 0 with nothing written (10_state.md R24,
41_control_flow.md R102). The slot keeps its value. -/
def popPc (s : State) : Result :=
  if h : s.sp.val = 0 then .next (s.raise (.stackUnderflow 0))
  else .next { s with sp := ⟨s.sp.val - 1, by omega⟩, pc := s.stack[s.sp.val - 1]'(by omega) }

/-! ### Fetch (40_dispatcher.md R91) -/

/-- A successful fetch: IR <- the word at PC, PC <- trunc_16(PC + 2). -/
def State.fetched (s : State) : State := (s.writeIr (Memory.readWord s.mem s.pc.toNat)).writePc (s.pc + 2)

/-! ### Framebuffer (10_state.md R29) -/

/-- FB[y mod 32][x mod 64]: coordinates wrap (44_display.md R153). -/
def fbGet (f : Framebuffer) (x y : Nat) : Bool :=
  (f[y % 32]'(Nat.mod_lt _ (by decide)))[x % 64]'(Nat.mod_lt _ (by decide))

/-- FB[y mod 32][x mod 64] <- FB[y mod 32][x mod 64] ^ 1 (44_display.md R152). -/
def fbToggle (f : Framebuffer) (x y : Nat) : Framebuffer :=
  f.set (y % 32)
    ((f[y % 32]'(Nat.mod_lt _ (by decide))).set (x % 64) (!fbGet f x y) (Nat.mod_lt _ (by decide)))
    (Nat.mod_lt _ (by decide))

/-- Every cell off (44_display.md R151). -/
def fbClear : Framebuffer := Vector.replicate 32 (Vector.replicate 64 false)

/-! ### Keypad (10_state.md R28) -/

/-- The lowest pressed key, if any (45_timers_keypad.md R163, log 18). -/
def lowestKey (k : Keys) : Option (Fin 16) := (List.finRange 16).find? fun j => k[j]

/-! ### The fault codes (60_exceptions.md R171) -/

/-- The numeric code of a cause (R171, log 23). -/
def FaultCause.code : FaultCause → Nat
  | .boundsViolation _ _ => 1
  | .stackOverflow _ => 2
  | .stackUnderflow _ => 3
  | .unknownOpcode _ => 4

/-- The code of the state's record: 0 means no fault (R171). -/
def State.faultCode (s : State) : Nat :=
  match s.fault with
  | none => 0
  | some r => r.cause.code

/-! ### Placing an instruction word -/

/-- The state with the word `w` where the next cycle fetches. A PC past the last word of memory is first put at
PROGRAM_BASE, since no word can stand there; a fault record is cleared and a cycle turn is put first, since the next step
would otherwise not fetch (log 12). -/
def State.placeWord (s : State) (w : Word) : State :=
  let pc := if s.pc.toNat ≤ 4094 then s.pc else BitVec.ofNat 16 Config.programBase
  { s with
    pc := pc
    mem := Memory.writeBytes s.mem pc.toNat (bytesOfWord w)
    fault := none
    turns := match s.turns with
      | [] => []
      | t :: ts => .cycle :: t :: ts }

end Sys2Proof.Machine
end

