-- ==== Sys2Proof/Machine/Flags.lean ====
section
/-! DEFINITION. The values instructions write to VF (10_state.md R21, 42_alu.md R120). VF is the only flag. -/

namespace Sys2Proof.Machine

open Sys2Proof

/-- bool(c) as a register value (00_scope.md R8). -/
def flagOf (c : Bool) : Byte := if c then 1 else 0

/-- The carry of ADD Vx, Vy: the 9-bit sum exceeds 255 (42_alu.md R127). -/
def carryFlag (a b : Byte) : Byte := flagOf (decide (255 < a.toNat + b.toNat))

/-- bool(a > b), strictly: the flag of SUB, and of SUBN with the operands exchanged (42_alu.md R128, R130). -/
def greaterFlag (a b : Byte) : Byte := flagOf (decide (b.toNat < a.toNat))

/-- Bit 0, which SHR shifts out (42_alu.md R129). -/
def lowBitFlag (a : Byte) : Byte := a &&& 1

/-- Bit 7, which SHL shifts out (42_alu.md R131). -/
def highBitFlag (a : Byte) : Byte := (a &&& 0x80) >>> 7

/-- Two statements in order: VF <- flag, then V[x] <- a value of the registers as the first statement left them. The order
shows when an operand is VF (00_scope.md R11, D3, log 15). -/
def flagThenWrite (flag : Byte) (x : Nibble) (value : State → Byte) (s : State) : State :=
  (s.writeV vf flag).writeV x (value (s.writeV vf flag))

end Sys2Proof.Machine
end

