-- ==== Sys2Proof/Machine/Operands.lean ====
section
/-! DEFINITION. Operand forms (30_encoding.md R72): how an operand value becomes an address or a register value. -/

namespace Sys2Proof.Machine

open Sys2Proof

/-- zext_16(nnn): an address operand as a 16-bit value (R72). -/
def zext12 (nnn : Addr12) : Word := nnn.setWidth 16

/-- A sum modulo 4096: the 12-bit wrap of JP V0 and ADD I (41_control_flow.md R109, 43_index_memory.md R141). -/
def sum12 (a b : Nat) : Word := BitVec.ofNat 16 ((a + b) % 4096)

/-- trunc_16(FONT_BASE + digit × GLYPH_SIZE) (43_index_memory.md R142). -/
def glyphAddress (fontBase : FontBase) (digit : Byte) : Word :=
  BitVec.ofNat 16 (fontBase.val + digit.toNat * Config.glyphSize)

/-- The three decimal digits of a byte, most significant first (43_index_memory.md R143). -/
def bcdDigits (b : Byte) : List Byte :=
  [BitVec.ofNat 8 (b.toNat / 100), BitVec.ofNat 8 (b.toNat / 10 % 10), BitVec.ofNat 8 (b.toNat % 10)]

/-- V[0]..V[x] in increasing order, as LD [I], Vx stores them (43_index_memory.md R144). -/
def regsUpTo (v : Regs) (x : Nibble) : List Byte := v.toList.take (x.toNat + 1)

/-- The register file after V[j] <- M[a + j] for j in 0..x (43_index_memory.md R145). Each register is written once and
memory is not changed, so the order cannot be observed (log 26). -/
def regsLoaded (v : Regs) (m : Memory) (a : Nat) (x : Nibble) : Regs :=
  Vector.ofFn fun j : Fin 16 => if j.val ≤ x.toNat then Memory.read m (a + j.val) else v[j]

end Sys2Proof.Machine
end

