-- ==== Sys2Proof/Machine/Alu.lean ====
section
/-! DEFINITION. The 8-bit ALU: loads, adds, logic, subtracts, shifts, random (42_alu.md). Arithmetic wraps modulo 256
(R120). -/

namespace Sys2Proof.Machine

open Sys2Proof

/-- LD Vx, kk (R121). -/
def execLdImm (x : Nibble) (kk : Byte) (s : State) : Result := .next (s.writeV x kk)

/-- ADD Vx, kk (R122): no flag. -/
def execAddImm (x : Nibble) (kk : Byte) (s : State) : Result := .next (s.writeV x (s.readV x + kk))

/-- LD Vx, Vy (R123). -/
def execLdReg (x y : Nibble) (s : State) : Result := .next (s.writeV x (s.readV y))

/-- OR Vx, Vy (R124): VF is not written (D4). -/
def execOrReg (x y : Nibble) (s : State) : Result := .next (s.writeV x (s.readV x ||| s.readV y))

/-- AND Vx, Vy (R125): VF is not written (D4). -/
def execAndReg (x y : Nibble) (s : State) : Result := .next (s.writeV x (s.readV x &&& s.readV y))

/-- XOR Vx, Vy (R126): VF is not written (D4). -/
def execXorReg (x y : Nibble) (s : State) : Result := .next (s.writeV x (s.readV x ^^^ s.readV y))

/-- ADD Vx, Vy (R127): the 9-bit sum is formed before VF is written. -/
def execAddReg (x y : Nibble) (s : State) : Result :=
  .next (flagThenWrite (carryFlag (s.readV x) (s.readV y)) x (fun _ => s.readV x + s.readV y) s)

/-- SUB Vx, Vy (R128): the difference reads the registers after the VF write. -/
def execSubReg (x y : Nibble) (s : State) : Result :=
  .next (flagThenWrite (greaterFlag (s.readV x) (s.readV y)) x (fun s1 => s1.readV x - s1.readV y) s)

/-- SHR Vx (R129): the shift reads V[x] after the VF write. -/
def execShr (x : Nibble) (s : State) : Result :=
  .next (flagThenWrite (lowBitFlag (s.readV x)) x (fun s1 => s1.readV x >>> 1) s)

/-- SUBN Vx, Vy (R130): the difference reads the registers after the VF write. -/
def execSubnReg (x y : Nibble) (s : State) : Result :=
  .next (flagThenWrite (greaterFlag (s.readV y) (s.readV x)) x (fun s1 => s1.readV y - s1.readV x) s)

/-- SHL Vx (R131): the shift reads V[x] after the VF write. -/
def execShl (x : Nibble) (s : State) : Result :=
  .next (flagThenWrite (highBitFlag (s.readV x)) x (fun s1 => s1.readV x <<< 1) s)

/-- RND Vx, kk with the byte drawn as an argument (R132). -/
def drawMasked (r : Byte) (x : Nibble) (kk : Byte) (s : State) : State := s.countDraw.writeV x (r &&& kk)

/-- RND Vx, kk (R132): the byte drawn is the free value of this draw (10_state.md R36, log 9). -/
def execRnd (x : Nibble) (kk : Byte) (s : State) : Result :=
  .next (drawMasked (Config.randomByte s.draws) x kk s)

end Sys2Proof.Machine
end

