-- ==== Sys2Proof/Machine/ControlFlow.lean ====
section
/-! DEFINITION. Control flow: jumps, calls, returns, skips and SYS (41_control_flow.md). PC is pc0 + 2 when a meaning
begins (40_dispatcher.md R97). -/

namespace Sys2Proof.Machine

open Sys2Proof

/-- SYS nnn (R101): UnknownOpcode(IR) when SYS_MODE = fault, nothing when SYS_MODE = nop (log 6). -/
def execSys (_nnn : Addr12) (s : State) : Result :=
  .next (match s.sysMode with
    | .fault => s.raise (.unknownOpcode s.ir)
    | .nop => s)

/-- RET (R102). -/
def execRet (s : State) : Result := popPc s

/-- JP nnn (R103). -/
def execJp (nnn : Addr12) (s : State) : Result := .next (s.writePc (zext12 nnn))

/-- CALL nnn (R104). -/
def execCall (nnn : Addr12) (s : State) : Result := pushPc s fun s1 => s1.writePc (zext12 nnn)

/-- SE Vx, kk (R105). -/
def execSeImm (x : Nibble) (kk : Byte) (s : State) : Result := .next (s.skipIf (s.readV x == kk))

/-- SNE Vx, kk (R106). -/
def execSneImm (x : Nibble) (kk : Byte) (s : State) : Result := .next (s.skipIf (s.readV x != kk))

/-- SE Vx, Vy (R107). -/
def execSeReg (x y : Nibble) (s : State) : Result := .next (s.skipIf (s.readV x == s.readV y))

/-- SNE Vx, Vy (R108). -/
def execSneReg (x y : Nibble) (s : State) : Result := .next (s.skipIf (s.readV x != s.readV y))

/-- JP V0, nnn (R109): V[0] always, whatever the x bits of nnn. -/
def execJpV0 (nnn : Addr12) (s : State) : Result :=
  .next (s.writePc (sum12 (s.readV 0).toNat nnn.toNat))

end Sys2Proof.Machine
end

