-- ==== Sys2Proof/Machine/Display.lean ====
section
/-! DEFINITION. The framebuffer blitter: clear screen, draw sprite with XOR and collision (44_display.md). -/

namespace Sys2Proof.Machine

open Sys2Proof

/-- CLS (R151). -/
def execCls (s : State) : Result := .next (s.writeFb fbClear)

/-- What a sprite draw carries through its loop: the framebuffer, and whether a set bit has met an on cell (R154). -/
structure Blit where
  fb : Framebuffer
  hit : Bool
  deriving DecidableEq, Repr

/-- One sprite bit at cell (cx, cy): a set bit toggles the cell and records a collision if it was on; a clear bit does
nothing (R150, R154). Coordinates wrap (R153). -/
def blitBit (bit : Bool) (cx cy : Nat) (t : Blit) : Blit :=
  if bit then { fb := fbToggle t.fb cx cy, hit := t.hit || fbGet t.fb cx cy } else t

/-- One sprite row: columns 0 to 7 from the most significant bit (R150). -/
def blitRow (b : Byte) (ox cy : Nat) (t : Blit) : Blit :=
  (List.range 8).foldl (fun u col => blitBit (b.getLsbD (7 - col)) (ox + col) cy u) t

/-- The rows 0 to n − 1 of the sprite at address `a`, at origin (ox, oy) (R152). -/
def blitSprite (m : Memory) (a n ox oy : Nat) (t : Blit) : Blit :=
  (List.range n).foldl (fun u row => blitRow (Memory.read m (a + row)) ox (oy + row) u) t

/-- The draw of R152 after its range check: the origin is read before VF is cleared (D15), and VF ends as the collision
flag (R154, log 25). -/
def drawSprite (x y n : Nibble) (s : State) : State :=
  let t := blitSprite s.mem s.i.toNat n.toNat (s.readV x).toNat (s.readV y).toNat { fb := s.fb, hit := false }
  (s.writeV vf (flagOf t.hit)).writeFb t.fb

/-- DRW Vx, Vy, n (R152). -/
def execDrw (x y n : Nibble) (s : State) : Result := guardRange .sprite s.i.toNat n.toNat s (drawSprite x y n)

end Sys2Proof.Machine
end

