-- ==== Sys2Proof/Machine/IndexMemory.lean ====
section
/-! DEFINITION. The index register and memory transfers (43_index_memory.md). Addresses are I plus an exact offset, checked
whole before any write; no access changes I (D24). -/

namespace Sys2Proof.Machine

open Sys2Proof

/-- LD I, nnn (R140). -/
def execLdI (nnn : Addr12) (s : State) : Result := .next (s.writeI (zext12 nnn))

/-- ADD I, Vx (R141): modulo 4096, no flag (D4). -/
def execAddI (x : Nibble) (s : State) : Result := .next (s.writeI (sum12 s.i.toNat (s.readV x).toNat))

/-- LD F, Vx (R142): V[x] is not masked (D23), no memory is accessed. -/
def execLdF (x : Nibble) (s : State) : Result := .next (s.writeI (glyphAddress s.fontBase (s.readV x)))

/-- LD B, Vx (R143). -/
def execLdB (x : Nibble) (s : State) : Result :=
  guardRange .bcd s.i.toNat 3 s fun s1 =>
    s1.writeMem (Memory.writeBytes s1.mem s1.i.toNat (bcdDigits (s1.readV x)))

/-- LD [I], Vx (R144). -/
def execLdMemVx (x : Nibble) (s : State) : Result :=
  guardRange .store s.i.toNat (x.toNat + 1) s fun s1 =>
    s1.writeMem (Memory.writeBytes s1.mem s1.i.toNat (regsUpTo s1.v x))

/-- LD Vx, [I] (R145). -/
def execLdVxMem (x : Nibble) (s : State) : Result :=
  guardRange .load s.i.toNat (x.toNat + 1) s fun s1 =>
    s1.writeRegs (regsLoaded s1.v s1.mem s1.i.toNat x)

end Sys2Proof.Machine
end

