-- ==== Sys2Proof/Machine/TimersKeypad.lean ====
section
/-! DEFINITION. Timer and keypad instructions (45_timers_keypad.md). -/

namespace Sys2Proof.Machine

open Sys2Proof

/-- Test the key V[x] names: an index of 16 or more raises BoundsViolation(keypad, V[x]); otherwise skip when the key's
state is `want` (R160, R161, D14, log 19). -/
def skipOnKey (x : Nibble) (want : Bool) (s : State) : Result :=
  if h : (s.readV x).toNat < 16 then .next (s.skipIf (s.keys[(s.readV x).toNat] == want))
  else .next (s.raise (.boundsViolation .keypad (s.readV x).toNat))

/-- SKP Vx (R160). -/
def execSkp (x : Nibble) (s : State) : Result := skipOnKey x true s

/-- SKNP Vx (R161). -/
def execSknp (x : Nibble) (s : State) : Result := skipOnKey x false s

/-- LD Vx, DT (R162). -/
def execLdVxDt (x : Nibble) (s : State) : Result := .next (s.writeV x s.dt)

/-- LD Vx, K (R163): the lowest pressed key, or PC <- trunc_16(PC − 2) to run again next cycle (D13, log 18). -/
def execLdVxK (x : Nibble) (s : State) : Result :=
  match lowestKey s.keys with
  | some k => .next (s.writeV x (BitVec.ofNat 8 k.val))
  | none => .next (s.writePc (s.pc - 2))

/-- LD DT, Vx (R164). -/
def execLdDtVx (x : Nibble) (s : State) : Result := .next (s.writeDt (s.readV x))

/-- LD ST, Vx (R165). -/
def execLdStVx (x : Nibble) (s : State) : Result := .next (s.writeSt (s.readV x))

end Sys2Proof.Machine
end

