-- ==== Sys2Proof/Machine/Events.lean ====
section
/-! DEFINITION. The external events (10_state.md R41, 60_exceptions.md R183 to R187, 70_reset_and_hazards.md R200 to R205).
Each is atomic and happens between cycles. -/

namespace Sys2Proof.Machine

open Sys2Proof

/-- One timer down by one, with a floor of 0 (60_exceptions.md R183). -/
def countDown (b : Byte) : Byte := if b = 0 then 0 else b - 1

/-- `tick`: both timers at once (60_exceptions.md R183, D18). -/
def State.tick (s : State) : State := (s.writeDt (countDown s.dt)).writeSt (countDown s.st)

/-- `load(image)`: copy the image to PROGRAM_BASE, or reject it with no effect if it does not fit
(70_reset_and_hazards.md R203). An image that is copied ends the load step of the boot (R205, log 13). -/
def State.loadImage (s : State) (image : List Byte) : State :=
  if Config.programBase + image.length ≤ Config.memSize then
    (s.writeMem (Memory.writeBytes s.mem Config.programBase image)).writeBoot .loaded
  else s

/-- `reset`: construct a new machine state from the host's FONT_DATA and INIT_* values (10_state.md R37,
70_reset_and_hazards.md R200 to R202). Everything is new but four of the model's own fields: the parameters are fixed for
a run, the draws go on so that no byte is drawn twice, and the coming moves stay (log 27). The boot begins again. -/
def State.construct (l : Launch) (s : State) : State where
  v := l.initV
  i := l.initI
  pc := BitVec.ofNat 16 Config.programBase
  sp := 0
  stack := l.initS
  dt := l.initDT
  st := l.initST
  keys := l.initK
  fb := l.initFB
  mem := Memory.writeBytes l.initM s.fontBase.val l.fontData.toList
  ir := l.initIR
  fault := none
  sysMode := s.sysMode
  fontBase := s.fontBase
  draws := s.draws
  turns := s.turns
  boot := .constructed

/-- What `display` returns: the 2048 cells in row-major order, cell (x, y) at y × 64 + x (60_exceptions.md R186). -/
def State.display (s : State) : Vector Bool 2048 :=
  Vector.ofFn fun j : Fin 2048 => fbGet s.fb (j.val % 64) (j.val / 64)

/-- What `sound` returns: ST (10_state.md R41). -/
def State.sound (s : State) : Byte := s.st

/-- The effect of an external event on the state; `display` and `sound` change nothing (10_state.md R41). -/
def applyEvent (e : Event) (s : State) : State :=
  match e with
  | .reset l => s.construct l
  | .load image => s.loadImage image
  | .tick => s.tick
  | .keys k => s.writeKeys k
  | .display => s
  | .sound => s

/-- May this event happen now? A load happens once, before the first cycle (70_reset_and_hazards.md R205, 10_state.md R41);
every other event at any time between cycles (10_state.md R41). -/
def Event.mayHappen (e : Event) (s : State) : Bool :=
  match e with
  | .load _ => s.boot == .constructed
  | .reset _ | .tick | .keys _ | .display | .sound => true

/-- An external event. A load the boot order rules out is no move of the machine, so there is no step (log 13). -/
def takeEvent (e : Event) (s : State) : Result :=
  if e.mayHappen s then .next (applyEvent e s) else .fault .loadAfterBoot

/-- The launch `State.reset` stands for: every OPEN value 0 and the conventional font (logs 4, 5 and 7). -/
def launchOfReset : Launch where
  initV := Vector.replicate 16 0
  initI := 0
  initS := Vector.replicate 16 0
  initDT := 0
  initST := 0
  initFB := fbClear
  initK := Vector.replicate 16 false
  initM := []
  initIR := 0
  fontData := Vector.ofFn fun j : Fin 80 => Config.fontBytes.getD j.val 0

end Sys2Proof.Machine
end

