-- ==== Sys2Proof/Machine/Cycle.lean ====
section
/-! DEFINITION. The cycle: fetch, decode and execute one instruction (40_dispatcher.md R90), and one turn of the machine. -/

namespace Sys2Proof.Machine

open Sys2Proof

/-- Decode IR and execute: an unknown word raises UnknownOpcode(IR) (40_dispatcher.md R92, R93). -/
def decodeAndExecute (s : State) : Result :=
  match decode s.ir with
  | .ok i => exec i s
  | .error _ => .next (s.raise (.unknownOpcode s.ir))

/-- One cycle (40_dispatcher.md R90). A failed fetch writes the fault record alone (R91). A core whose fault record is set
has no step (R95). -/
def cycle (s : State) : Result :=
  match s.fault with
  | some r => .fault (.coreStopped r)
  | none =>
    match checkRange s.pc.toNat 2 with
    | some a => .next (s.latchFault s.pc (.boundsViolation .fetch a))
    | none => decodeAndExecute s.fetched

/-- One move of the machine: the next of the coming turns, or a cycle when none is listed (00_scope.md R6, log 11). -/
def takeTurn (s : State) : Result :=
  match s.turns with
  | [] => cycle (s.beginCycle [])
  | .cycle :: ts => cycle (s.beginCycle ts)
  | .external e :: ts => takeEvent e (s.writeTurns ts)

end Sys2Proof.Machine
end

