-- ==== Sys2Proof/Machine/Step.lean ====
section
/-! DEFINITION. The step function, and how the host places an instruction where the next step fetches it. -/

namespace Sys2Proof.Machine

open Sys2Proof

/-- One step: one turn of the machine (Machine/Cycle.lean). Time is not modelled (log 24). -/
def step (s : State) : Host.Outcome State Fault Refusal := takeTurn s

/-- `s` with the table word `w` of `nbits` bits stored where `step` fetches its next instruction (log 12). -/
def State.withFetchWord (s : State) (nbits w : Nat) : State := s.placeWord (tableWord nbits w)

end Sys2Proof.Machine
end

