-- ==== Sys2Proof/Safety.lean ====
section
/-! DEFINITION. The terms claims are stated in: what a run without fault is, the invariant of the machine, what a sprite
covers, stop points, the boot order the driver owes, and which instructions write which element. -/

namespace Sys2Proof.Machine

open Sys2Proof

/-- The core has not faulted: the conclusion of a claim that a program runs without fault (40_dispatcher.md R95). -/
abbrev State.running (s : State) : Prop := s.fault = none

/-- The next step is a cycle, and `ts` are the moves after it: the driver has listed the cycle, or has listed nothing. -/
abbrev State.cycleNext (s : State) (ts : List Turn) : Prop := s.turns = .cycle :: ts ∨ s.turns = [] ∧ ts = []

/-- The fetch of the next cycle is in range (40_dispatcher.md R91). -/
abbrev State.fetchable (s : State) : Prop := s.pc.toNat ≤ 4094

/-- The word the next cycle fetches (20_memory.md R53). -/
def State.nextWord (s : State) : Word := Memory.readWord s.mem s.pc.toNat

/-- A turn the machine's invariant admits: what a reset lists as memory is in canonical form. -/
def Turn.lawful : Turn → Bool
  | .external (.reset l) => Memory.wf l.initM
  | .external (.load _) | .external .tick | .external (.keys _) | .external .display | .external .sound => true
  | .cycle => true

/-- The invariant every step keeps: memory is canonical, PC is at most 4098 (10_state.md R23), every return address on the
stack is at most 4096 (41_control_flow.md R104), and the pending resets carry canonical memory. SP in 0..16 (R25) and
FONT_BASE in its range (00_scope.md R5) are in the types. -/
structure State.Inv (s : State) : Prop where
  memory : Memory.wf s.mem = true
  pc_le : s.pc.toNat ≤ 4098
  returns_le : ∀ j : Fin 16, j.val < s.sp.val → s.stack[j].toNat ≤ 4096
  turns_lawful : ∀ t ∈ s.turns, t.lawful = true

/-- Some set bit of the n-row sprite at address `a`, drawn at origin (ox, oy), lands on cell (cx, cy): row r of the sprite is
the byte M[a + r], column c its bit 7 − c, and the cell is ((ox + c) mod 64, (oy + r) mod 32)
(44_display.md R150, R153). -/
def SpriteCovers (m : Memory) (a n ox oy cx cy : Nat) : Prop :=
  ∃ r < n, ∃ c < 8, (Memory.read m (a + r)).getLsbD (7 - c) = true ∧ (ox + c) % 64 = cx ∧ (oy + r) % 32 = cy

/-- A stop point: PC = p with p ≤ 0xFFE and the word there is `JP p`, that is 0x1000 + p (70_reset_and_hazards.md R213). -/
def State.atStopPoint (s : State) : Prop :=
  s.pc.toNat ≤ 0xFFE ∧ (s.nextWord).toNat = 0x1000 + s.pc.toNat

/-- The awaiting-key condition of a state: the word at PC is LD Vx, K and no key is pressed (10_state.md R34). -/
def State.awaitsKey (s : State) : Prop :=
  s.fetchable ∧ (∃ x, decode s.nextWord = .ok (.ldVxK x)) ∧ ∀ j : Fin 16, s.keys[j] = false

/-- A boot and the moves after it keep the order of 70_reset_and_hazards.md R205 (log 13), the launch premise of a claim:
`reset`, then the `load` of an image that fits, then every other move but `load`, until the next `reset`. An image that does
not fit is no load. When no move is listed cycles follow, so a list may only end after a load. -/
def bootOrder : BootPhase → List Turn → Bool
  | .constructed, [] => false
  | .loaded, [] | .running, [] => true
  | _, .external (.reset _) :: ts => bootOrder .constructed ts
  | .constructed, .external (.load image) :: ts =>
    bootOrder (if Config.programBase + image.length ≤ Config.memSize then .loaded else .constructed) ts
  | .loaded, .external (.load _) :: _ | .running, .external (.load _) :: _ => false
  | .constructed, .cycle :: _ => false
  | .loaded, .cycle :: ts | .running, .cycle :: ts => bootOrder .running ts
  | .constructed, .external .tick :: _ | .constructed, .external (.keys _) :: _ => false
  | .constructed, .external .display :: _ | .constructed, .external .sound :: _ => false
  | .loaded, .external .tick :: ts | .loaded, .external (.keys _) :: ts => bootOrder .loaded ts
  | .loaded, .external .display :: ts | .loaded, .external .sound :: ts => bootOrder .loaded ts
  | .running, .external .tick :: ts | .running, .external (.keys _) :: ts => bootOrder .running ts
  | .running, .external .display :: ts | .running, .external .sound :: ts => bootOrder .running ts

/-! ### Which instructions write which element (10_state.md R39) -/

/-- The registers an instruction may write: R39's columns V and VF as flag. -/
def mayWriteV (i : Instr) (j : Nibble) : Bool :=
  match i with
  | .ldImm x _ | .addImm x _ | .rnd x _ => j == x
  | .ldReg x _ | .orReg x _ | .andReg x _ | .xorReg x _ => j == x
  | .ldVxDt x | .ldVxK x => j == x
  | .addReg x _ | .subReg x _ | .subnReg x _ => j == x || j == vf
  | .shr x | .shl x => j == x || j == vf
  | .drw _ _ _ => j == vf
  | .ldVxMem x => decide (j.toNat ≤ x.toNat)
  | .sys _ | .cls | .ret | .jp _ | .call _ | .jpV0 _ => false
  | .seImm _ _ | .sneImm _ _ | .seReg _ _ | .sneReg _ _ | .skp _ | .sknp _ => false
  | .ldDtVx _ | .ldStVx _ | .ldI _ | .addI _ | .ldF _ | .ldB _ | .ldMemVx _ => false

/-- The instructions that may write PC beyond the fetch's advance: R39's column PC. -/
def mayWritePc : Instr → Bool
  | .ret | .jp _ | .call _ | .jpV0 _ => true
  | .seImm _ _ | .sneImm _ _ | .seReg _ _ | .sneReg _ _ | .skp _ | .sknp _ | .ldVxK _ => true
  | .sys _ | .cls | .ldImm _ _ | .addImm _ _ | .ldReg _ _ | .orReg _ _ | .andReg _ _ | .xorReg _ _ => false
  | .addReg _ _ | .subReg _ _ | .shr _ | .subnReg _ _ | .shl _ | .rnd _ _ | .drw _ _ _ => false
  | .ldVxDt _ | .ldDtVx _ | .ldStVx _ | .ldI _ | .addI _ | .ldF _ | .ldB _ | .ldMemVx _ | .ldVxMem _ => false

/-- The instructions that may raise a fault once decoded (60_exceptions.md R178). -/
def mayFault : Instr → Bool
  | .sys _ | .ret | .call _ | .drw _ _ _ | .skp _ | .sknp _ | .ldB _ | .ldMemVx _ | .ldVxMem _ => true
  | .cls | .jp _ | .jpV0 _ | .seImm _ _ | .sneImm _ _ | .seReg _ _ | .sneReg _ _ => false
  | .ldImm _ _ | .addImm _ _ | .ldReg _ _ | .orReg _ _ | .andReg _ _ | .xorReg _ _ => false
  | .addReg _ _ | .subReg _ _ | .shr _ | .subnReg _ _ | .shl _ | .rnd _ _ => false
  | .ldVxDt _ | .ldVxK _ | .ldDtVx _ | .ldStVx _ | .ldI _ | .addI _ | .ldF _ => false

end Sys2Proof.Machine
end

