-- ==== Sys2Proof/Certificates/Slice0/Obligations.lean ====
section
/-! DEFINITION. The statements for the provers, from the numbered rules of spec/. A statement of what an instruction does
is an equation for the whole next state, so it carries the instruction's frame. -/

open Sys2Proof Sys2Proof.Machine

/-! ### Reset, load and the other external events (10_state.md R41, 60_exceptions.md, 70_reset_and_hazards.md) -/

/-- R201, R202 (D1, D20, logs 1 and 3; D19, log 8): after reset the first cycle fetches from PROGRAM_BASE, the stack
is empty, and FONT_DATA stands at M[FONT_BASE .. FONT_BASE + 16 × GLYPH_SIZE − 1]. -/
def Obligations.ResetEntersAtBaseWithFont : Prop :=
  ∀ (s : State) (l : Launch) (ts : List Turn), s.turns = .external (.reset l) :: ts →
    ∃ t, step s = .next t ∧ t.pc.toNat = Config.programBase ∧
      t.nextWord = Memory.readWord t.mem Config.programBase ∧ t.sp.val = 0 ∧
      ∀ j : Fin 80, Memory.read t.mem (s.fontBase.val + j.val) = l.fontData[j]

/-- R37, R200 (D19, D27, logs 8 and 28; the model's own fields: log 27): reset sets every state element, whatever the
machine held before. -/
def Obligations.ResetSetsEveryElement : Prop :=
  ∀ (s : State) (l : Launch) (ts : List Turn), s.turns = .external (.reset l) :: ts →
    ∃ m, step s = .next
        { v := l.initV, i := l.initI, pc := BitVec.ofNat 16 Config.programBase, sp := 0, stack := l.initS,
          dt := l.initDT, st := l.initST, keys := l.initK, fb := l.initFB, mem := m, ir := l.initIR, fault := none,
          sysMode := s.sysMode, fontBase := s.fontBase, draws := s.draws, turns := ts, boot := .constructed } ∧
      ∀ a, Memory.read m a =
        if s.fontBase.val ≤ a ∧ a < s.fontBase.val + 80 then l.fontData.toList.getD (a - s.fontBase.val) 0
        else Memory.read l.initM a

/-- The machine right after reset: PC at PROGRAM_BASE, an empty stack and no fault record (R37). The contents of
memory are the model's: the conventional font at FONT_BASE (FONT_DATA of log 4), FONT_BASE = 0 (log 2), and 0 in every
byte from address 80 up (INIT_M of log 5). -/
def Obligations.ResetStateValues : Prop :=
  State.reset.pc.toNat = Config.programBase ∧ State.reset.sp.val = 0 ∧ State.reset.fault = none ∧
    (∀ j < 80, Memory.read State.reset.mem (State.reset.fontBase.val + j) = Config.fontBytes.getD j 0) ∧
    ∀ a, 80 ≤ a → Memory.read State.reset.mem a = 0

/-- R203, R205 (the phase `boot` and the stop are the model's form of R205, log 13): before the first cycle, and while
no image is accepted, an image that fits is copied from PROGRAM_BASE up and nothing else changes, and any other image
is rejected with no effect; a load after that is no move. -/
def Obligations.LoadCopiesOrRejects : Prop :=
  ∀ (s : State) (image : List Byte) (ts : List Turn), s.turns = .external (.load image) :: ts →
    (s.boot = .constructed → Config.programBase + image.length ≤ 4096 →
      ∃ m, step s = .next { s with mem := m, turns := ts, boot := .loaded } ∧
        ∀ a, Memory.read m a =
          if Config.programBase ≤ a ∧ a < Config.programBase + image.length then
            image.getD (a - Config.programBase) 0
          else Memory.read s.mem a) ∧
    (s.boot = .constructed → 4096 < Config.programBase + image.length → step s = .next { s with turns := ts }) ∧
    (s.boot ≠ .constructed → step s = .fault .loadAfterBoot)

/-- R183 (D18, log 21: one tick acts on both timers): each timer goes down by one with a floor of 0, and nothing else
changes. -/
def Obligations.TickCountsBothTimersDown : Prop :=
  ∀ (s : State) (ts : List Turn), s.turns = .external .tick :: ts →
    ∃ t, step s = .next t ∧ t.dt.toNat = s.dt.toNat - 1 ∧ t.st.toNat = s.st.toNat - 1 ∧
      t = { s with dt := t.dt, st := t.st, turns := ts }

/-- R185 (D29, log 21: at any time between cycles), R41: the keypad driver sets the sixteen key states and nothing
else; a sound read returns ST and changes nothing. -/
def Obligations.KeysAndSoundEvents : Prop :=
  ∀ (s : State) (ts : List Turn),
    (∀ k : Keys, s.turns = .external (.keys k) :: ts → step s = .next { s with keys := k, turns := ts }) ∧
    (s.turns = .external .sound :: ts → step s = .next { s with turns := ts }) ∧ s.sound = s.st

/-- R186: a display read returns the 2048 cells in row-major order and changes nothing. -/
def Obligations.DisplayReadsRowMajor : Prop :=
  (∀ (s : State) (ts : List Turn), s.turns = .external .display :: ts → step s = .next { s with turns := ts }) ∧
    ∀ (s : State) (x y : Nat) (_ : x < 64) (_ : y < 32),
      s.display[y * 64 + x] = (s.fb[y])[x]

/-- R41, R181: no event but `reset` changes the fault record, `reset` clears it, and every event but `load` (log 13)
happens on a faulted core too. -/
def Obligations.OnlyResetClearsFault : Prop :=
  ∀ (s : State) (e : Event) (ts : List Turn), s.turns = .external e :: ts →
    (∀ t, step s = .next t → (t.fault = s.fault ∨ ∃ l, e = .reset l) ∧ ∀ l, e = .reset l → t.fault = none) ∧
    ((∀ image, e ≠ .load image) → ∃ t, step s = .next t)

/-! ### The cycle (40_dispatcher.md) -/

/-- R90 to R93, R97: when the next move is a cycle and the word at PC decodes to an instruction, a step is `exec` of
it in the state the fetch leaves: IR is the word and PC is advanced by 2. The step also spends the listed cycle turn,
if one is listed, and records that a cycle has been invoked (logs 11 and 13). -/
def Obligations.StepRunsDecodedInstruction : Prop :=
  ∀ (s : State) (ts : List Turn) (i : Instr), s.running → s.cycleNext ts → s.fetchable →
    decode (Memory.readWord s.mem s.pc.toNat) = .ok i →
    step s = exec i { s with
      ir := Memory.readWord s.mem s.pc.toNat, pc := s.pc + 2, turns := ts, boot := .running }

/-- R53, R91: the fetch is big-endian: after any cycle whose fetch is in range, IR is M[PC] × 256 + M[PC + 1]. -/
def Obligations.FetchIsBigEndian : Prop :=
  ∀ (s : State) (ts : List Turn), s.running → s.cycleNext ts → s.fetchable →
    ∃ t, step s = .next t ∧
      t.ir.toNat = (Memory.read s.mem s.pc.toNat).toNat * 256 + (Memory.read s.mem (s.pc.toNat + 1)).toNat

/-- R91, R172 (D10, D11, logs 10 and 17): a fetch with PC of 4095 or more raises BoundsViolation(fetch, max(PC, 4096))
and writes nothing else of the machine's. -/
def Obligations.FetchOutOfRangeFaults : Prop :=
  ∀ (s : State) (ts : List Turn), s.running → s.cycleNext ts → 4095 ≤ s.pc.toNat →
    step s = .next { s with
      fault := some { cause := .boundsViolation .fetch (max s.pc.toNat 4096), pc0 := s.pc }
      turns := ts, boot := .running }

/-- R175 (D10, log 10, for what remains): UnknownOpcode(IR) is raised when the word decodes to no operation, and by
SYS when SYS_MODE = fault; only the fetch's writes and the record remain. -/
def Obligations.UnknownWordsFault : Prop :=
  ∀ (s : State) (ts : List Turn), s.running → s.cycleNext ts → s.fetchable →
    ((∃ e, decode s.nextWord = .error e) ∨ (∃ nnn, decode s.nextWord = .ok (.sys nnn)) ∧ s.sysMode = .fault) →
    step s = .next { s with
      ir := s.nextWord, pc := s.pc + 2,
      fault := some { cause := .unknownOpcode s.nextWord, pc0 := s.pc }
      turns := ts, boot := .running }

/-- R95 (D9, log 10): a core whose fault record is set has no cycle, whichever way the cycle is asked for. -/
def Obligations.FaultedCoreHasNoCycle : Prop :=
  ∀ (s : State) (ts : List Turn) (r : FaultRecord), s.fault = some r → s.cycleNext ts →
    step s = .fault (.coreStopped r)

/-- R176 (D10, log 10), R177: after a fetch fault only the record has changed; after any other fault only PC, IR and
the record have; and the record names the address the instruction was fetched from. -/
def Obligations.FaultsLeaveOnlyTheFetch : Prop :=
  ∀ (s t : State) (ts : List Turn) (r : FaultRecord), s.running → s.cycleNext ts → step s = .next t →
    t.fault = some r →
    r.pc0 = s.pc ∧
    (4095 ≤ s.pc.toNat ∧ t = { s with fault := some r, turns := ts, boot := .running } ∨
     s.fetchable ∧
      t = { s with ir := s.nextWord, pc := s.pc + 2, fault := some r, turns := ts, boot := .running })

/-- R209, R10: every check comes before every write: an instruction that raises a fault has written nothing but the
record. -/
def Obligations.ChecksComeBeforeWrites : Prop :=
  ∀ (i : Instr) (s t : State), s.running → exec i s = .next t → ¬ t.running → t = { s with fault := t.fault }

/-- R94: a cycle ends ok or in a fault, or the core has faulted and there is no step; no instruction ends any other
way. -/
def Obligations.EveryCycleEndsOkOrFaulted : Prop :=
  (∀ (i : Instr) (s : State), ∃ t, exec i s = .next t) ∧
    ∀ (s : State) (ts : List Turn), s.cycleNext ts →
      (s.running ∧ ∃ t, step s = .next t) ∨ (∃ r, s.fault = some r ∧ step s = .fault (.coreStopped r))

/-! ### Encoding (30_encoding.md) -/

/-- R74, R75: decoding an encoded instruction gives it back, with every operand at every value. -/
def Obligations.DecodeOfEncodeIsSame : Prop :=
  ∀ i : Instr, WellFormed i → decode (encode i) = .ok i

/-- R73, R75: a decoded word is its instruction's encoding but for the ignored bits, which the encoding has as 0:
w[3:0] in the 5 and 9 families, w[7:4] in SHR and SHL; and the instruction is well formed. -/
def Obligations.EncodeOfDecodeKeepsOperandBits : Prop :=
  ∀ (w : Word) (i : Instr), decode w = .ok i →
    WellFormed i ∧
    (encode i).toNat = (match i with
      | .seReg _ _ | .sneReg _ _ => w.toNat - w.toNat % 16
      | .shr _ | .shl _ => w.toNat - 16 * (w.toNat / 16 % 16)
      | _ => w.toNat)

/-- R78 to R80 (D7, log 14): the words that decode to no operation, and no others. -/
def Obligations.UnknownWordsAreThese : Prop :=
  ∀ w : Word, (∃ e, decode w = .error e) ↔
    (w.toNat / 4096 = 0x8 ∧ w.toNat % 16 ∈ [0x8, 0x9, 0xA, 0xB, 0xC, 0xD, 0xF]) ∨
    (w.toNat / 4096 = 0xE ∧ w.toNat % 256 ∉ [0x9E, 0xA1]) ∨
    (w.toNat / 4096 = 0xF ∧ w.toNat % 256 ∉ [0x07, 0x0A, 0x15, 0x18, 0x1E, 0x29, 0x33, 0x55, 0x65])

/-- R77: 5xyn and 9xyn decode to SE Vx, Vy and SNE Vx, Vy for every n. -/
def Obligations.LowNibbleIgnoredInRegisterSkips : Prop :=
  ∀ x y n : Nibble,
    decode (BitVec.ofNat 16 (0x5000 + 0x100 * x.toNat + 0x10 * y.toNat + n.toNat)) = .ok (.seReg x y) ∧
    decode (BitVec.ofNat 16 (0x9000 + 0x100 * x.toNat + 0x10 * y.toNat + n.toNat)) = .ok (.sneReg x y)

/-- R75 (D7, log 14) and the vectors of 95_test_vectors.md: words written out from the spec decode to the instructions
they stand for. -/
def Obligations.SampleWordsDecode : Prop :=
  decode 0x00E0 = .ok .cls ∧ decode 0x00EE = .ok .ret ∧ decode 0x01E0 = .ok (.sys 0x1E0) ∧
  decode 0x120A = .ok (.jp 0x20A) ∧ decode 0x2210 = .ok (.call 0x210) ∧ decode 0x3A7B = .ok (.seImm 0xA 0x7B) ∧
  decode 0x4A00 = .ok (.sneImm 0xA 0) ∧ decode 0x5121 = .ok (.seReg 1 2) ∧ decode 0x6A7B = .ok (.ldImm 0xA 0x7B) ∧
  decode 0x7305 = .ok (.addImm 3 5) ∧ decode 0x912F = .ok (.sneReg 1 2) ∧ decode 0xA300 = .ok (.ldI 0x300) ∧
  decode 0xC30F = .ok (.rnd 3 0x0F) ∧ decode 0x8126 = .ok (.shr 1) ∧ decode 0x8015 = .ok (.subReg 0 1) ∧
  decode 0xBFFF = .ok (.jpV0 0xFFF) ∧
  decode 0xD012 = .ok (.drw 0 1 2) ∧ decode 0xE5A1 = .ok (.sknp 5) ∧ decode 0xFA33 = .ok (.ldB 0xA) ∧
  decode 0xF265 = .ok (.ldVxMem 2) ∧ decode 0x8008 = .error (.unknown8 8)

/-! ### Control flow (41_control_flow.md) -/

/-- R101 (D5, log 6: SYS_MODE is a parameter; log 23: pc0): SYS does nothing when SYS_MODE = nop and raises
UnknownOpcode(IR) when SYS_MODE = fault. -/
def Obligations.SysFollowsItsMode : Prop :=
  ∀ (nnn : Addr12) (s : State),
    (s.sysMode = .nop → exec (.sys nnn) s = .next s) ∧
    (s.sysMode = .fault →
      exec (.sys nnn) s = .next { s with fault := some { cause := .unknownOpcode s.ir, pc0 := s.pc - 2 } })

/-- R102, R174 (log 23: the record's pc0 is PC − 2): RET pops the call stack into PC, and raises StackUnderflow at SP
= 0 with nothing written. -/
def Obligations.RetPopsOrUnderflows : Prop :=
  ∀ s : State,
    (∀ k : Fin 16, s.sp.val = k.val + 1 → exec .ret s = .next { s with sp := k.castSucc, pc := s.stack[k] }) ∧
    (s.sp.val = 0 →
      exec .ret s = .next { s with fault := some { cause := .stackUnderflow 0, pc0 := s.pc - 2 } })

/-- R103, R109: JP sets PC to nnn, JP V0 to (V[0] + nnn) mod 4096; nothing else changes. -/
def Obligations.JumpsSetPc : Prop :=
  ∀ (nnn : Addr12) (s : State),
    exec (.jp nnn) s = .next { s with pc := nnn.setWidth 16 } ∧
    ∃ t, exec (.jpV0 nnn) s = .next t ∧ t = { s with pc := t.pc } ∧
      t.pc.toNat = ((s.readV 0).toNat + nnn.toNat) % 4096

/-- R104, R173 (log 23: the record's pc0 is PC − 2): CALL pushes PC and jumps, and raises StackOverflow at SP = 16
with nothing written. -/
def Obligations.CallPushesOrOverflows : Prop :=
  ∀ (nnn : Addr12) (s : State),
    (∀ k : Fin 16, s.sp.val = k.val →
      exec (.call nnn) s =
        .next { s with stack := s.stack.set k.val s.pc, sp := k.succ, pc := nnn.setWidth 16 }) ∧
    (s.sp.val = 16 →
      exec (.call nnn) s = .next { s with fault := some { cause := .stackOverflow 16, pc0 := s.pc - 2 } })

/-- R104: a CALL and the RET that ends its subroutine restore PC to the pushed value and SP to its value before the
CALL, whatever the subroutine did to the rest of the state, calls of its own and the slots above its return address
among it. -/
def Obligations.CallRetRoundTrip : Prop :=
  ∀ (nnn : Addr12) (s : State) (h : s.sp.val < 16),
    ∃ t, exec (.call nnn) s = .next t ∧
      ∀ u : State, u.sp = t.sp → u.stack[s.sp.val] = t.stack[s.sp.val] →
        ∃ w, exec .ret u = .next w ∧ w.pc = s.pc ∧ w.sp = s.sp

/-- R100, R105 to R108 (D25, log 22: the new PC is not checked): the register skips add 2 to PC exactly when their
condition holds, and change nothing else. -/
def Obligations.RegisterSkipsOnCondition : Prop :=
  ∀ (x y : Nibble) (kk : Byte) (s : State),
    exec (.seImm x kk) s = .next { s with pc := if s.readV x = kk then s.pc + 2 else s.pc } ∧
    exec (.sneImm x kk) s = .next { s with pc := if s.readV x = kk then s.pc else s.pc + 2 } ∧
    exec (.seReg x y) s = .next { s with pc := if s.readV x = s.readV y then s.pc + 2 else s.pc } ∧
    exec (.sneReg x y) s = .next { s with pc := if s.readV x = s.readV y then s.pc else s.pc + 2 }

/-! ### ALU (42_alu.md) -/

/-- R121, R122, R123: LD Vx, kk; ADD Vx, kk with wrap and no flag; LD Vx, Vy. Only V[x] is written. -/
def Obligations.LoadsAndImmediateAdd : Prop :=
  ∀ (x y : Nibble) (kk : Byte) (s : State),
    exec (.ldImm x kk) s = .next { s with v := regSet s.v x kk } ∧
    exec (.addImm x kk) s =
      .next { s with v := regSet s.v x (BitVec.ofNat 8 (((s.readV x).toNat + kk.toNat) % 256)) } ∧
    exec (.ldReg x y) s = .next { s with v := regSet s.v x (s.readV y) }

/-- R124 to R126 (D4, log 16: VF is not written): the logic operations write V[x] alone. -/
def Obligations.LogicWritesVxAlone : Prop :=
  ∀ (x y : Nibble) (s : State),
    exec (.orReg x y) s = .next { s with v := regSet s.v x (s.readV x ||| s.readV y) } ∧
    exec (.andReg x y) s = .next { s with v := regSet s.v x (s.readV x &&& s.readV y) } ∧
    exec (.xorReg x y) s = .next { s with v := regSet s.v x (s.readV x ^^^ s.readV y) }

/-- R127 (D3, log 15, where an operand is VF): VF gets the carry of the 9-bit sum, then V[x] its low eight bits; the
sum is formed first. -/
def Obligations.AddWritesCarryThenSum : Prop :=
  ∀ (x y : Nibble) (s : State),
    exec (.addReg x y) s = .next { s with
      v := regSet (regSet s.v vf (if 255 < (s.readV x).toNat + (s.readV y).toNat then 1 else 0)) x
        (BitVec.ofNat 8 (((s.readV x).toNat + (s.readV y).toNat) % 256)) }

/-- R128, R130 (D3, log 15, where an operand is VF): VF gets the strict comparison, then V[x] the wrapped difference
of the registers as the VF write left them. -/
def Obligations.SubtractsFlagThenDifference : Prop :=
  ∀ (x y : Nibble) (s : State),
    (let v1 := regSet s.v vf (if (s.readV y).toNat < (s.readV x).toNat then 1 else 0);
      exec (.subReg x y) s = .next { s with
        v := regSet v1 x (BitVec.ofNat 8 (((regGet v1 x).toNat + 256 - (regGet v1 y).toNat) % 256)) }) ∧
    (let v1 := regSet s.v vf (if (s.readV x).toNat < (s.readV y).toNat then 1 else 0);
      exec (.subnReg x y) s = .next { s with
        v := regSet v1 x (BitVec.ofNat 8 (((regGet v1 y).toNat + 256 - (regGet v1 x).toNat) % 256)) })

/-- R129, R131 (D3, log 15, where x = 15): VF gets the bit shifted out of V[x], then V[x] is shifted by one as the VF
write left it. -/
def Obligations.ShiftsFlagThenShift : Prop :=
  ∀ (x : Nibble) (s : State),
    (let v1 := regSet s.v vf (BitVec.ofNat 8 ((s.readV x).toNat % 2));
      exec (.shr x) s = .next { s with v := regSet v1 x (BitVec.ofNat 8 ((regGet v1 x).toNat / 2)) }) ∧
    (let v1 := regSet s.v vf (BitVec.ofNat 8 ((s.readV x).toNat / 128));
      exec (.shl x) s = .next { s with v := regSet v1 x (BitVec.ofNat 8 (2 * (regGet v1 x).toNat % 256)) })

/-- R120: for operands other than VF the flag and the result are the carry and the sum, the comparison and the
difference, the bit shifted out and the shift, of the operands before the instruction. -/
def Obligations.AluFlagAndResultApartFromVf : Prop :=
  ∀ (x y : Nibble) (s : State), x ≠ 15 → y ≠ 15 →
    (∃ t, exec (.addReg x y) s = .next t ∧
      (t.readV x).toNat + 256 * (t.readV 15).toNat = (s.readV x).toNat + (s.readV y).toNat) ∧
    (∃ t, exec (.subReg x y) s = .next t ∧ t.readV x = s.readV x - s.readV y ∧
      (t.readV 15 = 1 ∧ (s.readV y).toNat < (s.readV x).toNat ∨
        t.readV 15 = 0 ∧ (s.readV x).toNat ≤ (s.readV y).toNat)) ∧
    (∃ t, exec (.subnReg x y) s = .next t ∧ t.readV x = s.readV y - s.readV x ∧
      (t.readV 15 = 1 ∧ (s.readV x).toNat < (s.readV y).toNat ∨
        t.readV 15 = 0 ∧ (s.readV y).toNat ≤ (s.readV x).toNat)) ∧
    (∃ t, exec (.shr x) s = .next t ∧
      2 * (t.readV x).toNat + (t.readV 15).toNat = (s.readV x).toNat ∧ (t.readV 15).toNat ≤ 1) ∧
    (∃ t, exec (.shl x) s = .next t ∧
      (t.readV x).toNat + 256 * (t.readV 15).toNat = 2 * (s.readV x).toNat ∧ (t.readV 15).toNat ≤ 1)

/-- R132: RND writes the random byte masked by kk, so no bit outside kk is ever set; the byte is the free value of the
draw (D22, log 9), of which nothing is assumed. -/
def Obligations.RndMasksTheDraw : Prop :=
  ∀ (x : Nibble) (kk : Byte) (s : State),
    ∃ t, exec (.rnd x kk) s = .next t ∧
      t = { s with v := regSet s.v x (Config.randomByte s.draws &&& kk), draws := s.draws + 1 } ∧
      t.readV x &&& kk = t.readV x

/-! ### Index register and memory (43_index_memory.md) -/

/-- R140: LD I sets I to nnn. -/
def Obligations.LdIndexSetsI : Prop :=
  ∀ (nnn : Addr12) (s : State), exec (.ldI nnn) s = .next { s with i := nnn.setWidth 16 }

/-- R141 (D4, log 16: VF is not written): ADD I sets I to (I + V[x]) mod 4096. R142 (D23, log 28: V[x] is not masked):
LD F sets I to FONT_BASE + V[x] × GLYPH_SIZE, which FONT_BASE's range keeps within 0x6AB (R22), so the truncation
drops nothing. -/
def Obligations.IndexArithmetic : Prop :=
  ∀ (x : Nibble) (s : State),
    (∃ t, exec (.addI x) s = .next t ∧ t = { s with i := t.i } ∧
      t.i.toNat = (s.i.toNat + (s.readV x).toNat) % 4096) ∧
    ∃ t, exec (.ldF x) s = .next t ∧ t = { s with i := t.i } ∧
      t.i.toNat = s.fontBase.val + (s.readV x).toNat * Config.glyphSize ∧ t.i.toNat ≤ 0x6AB

/-- R143 (D11, log 17: the sum is exact; log 23: the record's pc0 is PC − 2): LD B stores the hundreds, tens and ones
digits at I, I + 1 and I + 2 and changes no other byte; with I + 2 of 4096 or more it raises BoundsViolation(bcd,
max(I, 4096)) and writes no byte. -/
def Obligations.BcdStoresThreeDigits : Prop :=
  ∀ (x : Nibble) (s : State),
    (s.i.toNat + 2 < 4096 →
      ∃ t, exec (.ldB x) s = .next t ∧ t = { s with mem := t.mem } ∧
        (Memory.read t.mem s.i.toNat).toNat = (s.readV x).toNat / 100 ∧
        (Memory.read t.mem (s.i.toNat + 1)).toNat = (s.readV x).toNat / 10 % 10 ∧
        (Memory.read t.mem (s.i.toNat + 2)).toNat = (s.readV x).toNat % 10 ∧
        ∀ a, a < s.i.toNat ∨ s.i.toNat + 2 < a → Memory.read t.mem a = Memory.read s.mem a) ∧
    (4096 ≤ s.i.toNat + 2 →
      exec (.ldB x) s = .next { s with
        fault := some { cause := .boundsViolation .bcd (max s.i.toNat 4096), pc0 := s.pc - 2 } })

/-- R144 (D24, log 16: I is unchanged): LD [I], Vx stores V[0]..V[x] at I..I + x and changes no other byte. -/
def Obligations.StoreRegistersToMemory : Prop :=
  ∀ (x : Nibble) (s : State), s.i.toNat + x.toNat < 4096 →
    ∃ t, exec (.ldMemVx x) s = .next t ∧ t = { s with mem := t.mem } ∧
      (∀ j : Nibble, j.toNat ≤ x.toNat → Memory.read t.mem (s.i.toNat + j.toNat) = s.readV j) ∧
      ∀ a, a < s.i.toNat ∨ s.i.toNat + x.toNat < a → Memory.read t.mem a = Memory.read s.mem a

/-- R145 (D24, log 16: I is unchanged): LD Vx, [I] loads V[0]..V[x] from I..I + x and changes no other register and no
memory. -/
def Obligations.LoadRegistersFromMemory : Prop :=
  ∀ (x : Nibble) (s : State), s.i.toNat + x.toNat < 4096 →
    ∃ t, exec (.ldVxMem x) s = .next t ∧ t = { s with v := t.v } ∧
      ∀ j : Nibble, t.readV j = if j.toNat ≤ x.toNat then Memory.read s.mem (s.i.toNat + j.toNat) else s.readV j

/-- R144, R145: registers stored by LD [I], Vx are restored by LD Vx, [I] with the same I, whatever the registers hold
in between. -/
def Obligations.StoreThenLoadRestoresRegisters : Prop :=
  ∀ (x : Nibble) (s : State), s.i.toNat + x.toNat < 4096 →
    ∃ t, exec (.ldMemVx x) s = .next t ∧
      ∀ u : State, u.i = t.i → u.mem = t.mem →
        ∃ w, exec (.ldVxMem x) u = .next w ∧ ∀ j : Nibble, j.toNat ≤ x.toNat → w.readV j = s.readV j

/-- R172 (D11, log 17; D14, log 19, for the keypad row; log 23: pc0 is PC − 2): the execute-phase bounds violations,
each with the address it records and nothing else written. -/
def Obligations.BoundsViolationsRecordLowestAddress : Prop :=
  ∀ (x y n : Nibble) (s : State),
    (n ≠ 0 → 4096 < s.i.toNat + n.toNat →
      exec (.drw x y n) s = .next { s with
        fault := some { cause := .boundsViolation .sprite (max s.i.toNat 4096), pc0 := s.pc - 2 } }) ∧
    (4096 ≤ s.i.toNat + x.toNat →
      exec (.ldMemVx x) s = .next { s with
        fault := some { cause := .boundsViolation .store (max s.i.toNat 4096), pc0 := s.pc - 2 } } ∧
      exec (.ldVxMem x) s = .next { s with
        fault := some { cause := .boundsViolation .load (max s.i.toNat 4096), pc0 := s.pc - 2 } }) ∧
    (16 ≤ (s.readV x).toNat →
      exec (.skp x) s = .next { s with
        fault := some { cause := .boundsViolation .keypad (s.readV x).toNat, pc0 := s.pc - 2 } } ∧
      exec (.sknp x) s = .next { s with
        fault := some { cause := .boundsViolation .keypad (s.readV x).toNat, pc0 := s.pc - 2 } })

/-! ### Display (44_display.md) -/

/-- R151: CLS turns every cell off and changes nothing else. -/
def Obligations.ClsTurnsEveryCellOff : Prop :=
  ∀ s : State, ∃ t, exec .cls s = .next t ∧ t = { s with fb := t.fb } ∧
    ∀ (x y : Nat) (_ : x < 64) (_ : y < 32), (t.fb[y])[x] = false

/-- R150, R152, R153 (D15, D16, log 20: origin before the VF clear, n = 0 draws nothing): a sprite in range inverts
exactly the cells its set bits land on; only FB and VF are written. -/
def Obligations.DrwInvertsCoveredCells : Prop :=
  ∀ (x y n : Nibble) (s : State), n = 0 ∨ s.i.toNat + n.toNat ≤ 4096 →
    ∃ t, exec (.drw x y n) s = .next t ∧
      t = { s with fb := t.fb, v := regSet s.v vf (t.readV vf) } ∧
      ∀ (cx cy : Nat) (_ : cx < 64) (_ : cy < 32),
        ((t.fb[cy])[cx] = !(s.fb[cy])[cx] ↔
          SpriteCovers s.mem s.i.toNat n.toNat (s.readV x).toNat (s.readV y).toNat cx cy)

/-- R154 (D15, log 20, for an origin in VF): VF at the end of DRW is 1 exactly when some set sprite bit maps to a cell
that was 1 before the instruction, and 0 otherwise. -/
def Obligations.DrwCollisionFlag : Prop :=
  ∀ (x y n : Nibble) (s : State), n = 0 ∨ s.i.toNat + n.toNat ≤ 4096 →
    ∃ t, exec (.drw x y n) s = .next t ∧
      (t.readV 15 = 0 ∨ t.readV 15 = 1) ∧
      (t.readV 15 = 1 ↔ ∃ (cx cy : Nat) (_ : cx < 64) (_ : cy < 32), (s.fb[cy])[cx] = true ∧
        SpriteCovers s.mem s.i.toNat n.toNat (s.readV x).toNat (s.readV y).toNat cx cy)

/-- R155 (b), (c), for x and y other than 15 as R155 says: the same draw twice restores the framebuffer, and the
second draw sets VF exactly when some set bit maps to a cell that was off before the first. -/
def Obligations.DrwTwiceRestoresScreen : Prop :=
  ∀ (x y n : Nibble) (s : State), x ≠ 15 → y ≠ 15 → n = 0 ∨ s.i.toNat + n.toNat ≤ 4096 →
    ∃ t u, exec (.drw x y n) s = .next t ∧ exec (.drw x y n) t = .next u ∧ u.fb = s.fb ∧
      (u.readV 15 = 1 ↔ ∃ (cx cy : Nat) (_ : cx < 64) (_ : cy < 32), (s.fb[cy])[cx] = false ∧
        SpriteCovers s.mem s.i.toNat n.toNat (s.readV x).toNat (s.readV y).toNat cx cy)

/-! ### Timers and keypad (45_timers_keypad.md) -/

/-- R162, R164, R165: the timer moves, each writing its destination alone. -/
def Obligations.TimerMoves : Prop :=
  ∀ (x : Nibble) (s : State),
    exec (.ldVxDt x) s = .next { s with v := regSet s.v x s.dt } ∧
    exec (.ldDtVx x) s = .next { s with dt := s.readV x } ∧
    exec (.ldStVx x) s = .next { s with st := s.readV x }

/-- R160, R161: the key skips test the key V[x] names. -/
def Obligations.KeySkipsTestTheirKey : Prop :=
  ∀ (x : Nibble) (s : State) (k : Fin 16), (s.readV x).toNat = k.val →
    exec (.skp x) s = .next { s with pc := if s.keys[k] = true then s.pc + 2 else s.pc } ∧
    exec (.sknp x) s = .next { s with pc := if s.keys[k] = true then s.pc else s.pc + 2 }

/-- R163 (D13, log 18: level-sensitive, the lowest key): LD Vx, K stores the lowest pressed key, or moves PC back by 2
when none is pressed. -/
def Obligations.KeyWaitTakesLowestOrRepeats : Prop :=
  ∀ (x : Nibble) (s : State),
    (∀ k : Fin 16, s.keys[k] = true → (∀ j : Fin 16, j < k → s.keys[j] = false) →
      exec (.ldVxK x) s = .next { s with v := regSet s.v x (BitVec.ofNat 8 k.val) }) ∧
    ((∀ j : Fin 16, s.keys[j] = false) → exec (.ldVxK x) s = .next { s with pc := s.pc - 2 })

/-- R34, R190 (D13, log 18): while no key is pressed the wait re-executes in place: a cycle changes IR alone of the
machine's state, and the core still awaits a key. -/
def Obligations.KeyWaitHoldsThePc : Prop :=
  ∀ (s : State) (ts : List Turn), s.running → s.cycleNext ts → s.awaitsKey →
    ∃ t, step s = .next t ∧ t = { s with ir := s.nextWord, turns := ts, boot := .running } ∧ t.awaitsKey

/-! ### Whole-machine rules -/

/-- R23, R24, R104, 20_memory.md: every step, of the core or of an external agent, keeps the invariant. -/
def Obligations.StepKeepsInvariant : Prop :=
  ∀ s t : State, s.Inv → step s = .next t → t.Inv

/-- The invariant holds at reset, and after a reset event whatever the OPEN values are. -/
def Obligations.ResetMeetsInvariant : Prop :=
  State.reset.Inv ∧
    ∀ (s : State) (l : Launch), Memory.wf l.initM = true → (∀ t ∈ s.turns, t.lawful = true) → (s.construct l).Inv

/-- R22: with the spec's values no instruction takes I out of its 12 meaningful bits. -/
def Obligations.IndexStaysTwelveBits : Prop :=
  ∀ (i : Instr) (s t : State), s.i.toNat ≤ 0xFFF → exec i s = .next t → t.i.toNat ≤ 0xFFF

/-- R39, R28, R178: which instructions may write each state element: V and PC by `mayWriteV` and `mayWritePc` (R39's
columns), the fault record by `mayFault` (R178's list), the others as named here. K, IR and the model's own fields but
the count of draws no instruction writes. -/
def Obligations.ElementsWrittenOnlyByTheirInstructions : Prop :=
  ∀ (i : Instr) (s t : State), exec i s = .next t →
    (∀ j : Nibble, t.readV j = s.readV j ∨ mayWriteV i j = true) ∧
    (t.pc = s.pc ∨ mayWritePc i = true) ∧
    (t.fault = s.fault ∨ mayFault i = true) ∧
    t.keys = s.keys ∧ t.ir = s.ir ∧ t.sysMode = s.sysMode ∧ t.fontBase = s.fontBase ∧ t.turns = s.turns ∧
    t.boot = s.boot ∧
    (t.st = s.st ∨ ∃ x, i = .ldStVx x) ∧
    (t.dt = s.dt ∨ ∃ x, i = .ldDtVx x) ∧
    (t.i = s.i ∨ (∃ nnn, i = .ldI nnn) ∨ ∃ x, i = .addI x ∨ i = .ldF x) ∧
    (t.sp = s.sp ∧ t.stack = s.stack ∨ i = .ret ∧ t.stack = s.stack ∨ ∃ nnn, i = .call nnn) ∧
    (t.fb = s.fb ∨ i = .cls ∨ ∃ x y n, i = .drw x y n) ∧
    (t.mem = s.mem ∨ ∃ x, i = .ldB x ∨ i = .ldMemVx x) ∧
    (t.draws = s.draws ∨ ∃ x kk, i = .rnd x kk)

/-- R21 (D4, log 16, for the logic operations and ADD I): the instructions that write VF without naming it as their
destination are ADD, SUB, SHR, SUBN, SHL and DRW. -/
def Obligations.VfWrittenOnlyByFlagInstructions : Prop :=
  ∀ (i : Instr) (s t : State), exec i s = .next t → t.readV 15 ≠ s.readV 15 →
    (∃ x y, i = .addReg x y ∨ i = .subReg x y ∨ i = .subnReg x y ∨ ∃ n, i = .drw x y n) ∨
    (∃ x, i = .shr x ∨ i = .shl x) ∨
    (∃ y, i = .ldReg 15 y ∨ i = .orReg 15 y ∨ i = .andReg 15 y ∨ i = .xorReg 15 y) ∨
    (∃ kk, i = .ldImm 15 kk ∨ i = .addImm 15 kk ∨ i = .rnd 15 kk) ∨
    i = .ldVxDt 15 ∨ i = .ldVxK 15 ∨ i = .ldVxMem 15

/-- R27: no instruction reads ST: two states that differ in ST alone end differing in ST alone, and LD ST makes them
equal. -/
def Obligations.SoundTimerIsNeverRead : Prop :=
  ∀ (i : Instr) (s t : State) (b : Byte), exec i s = .next t →
    ∃ u, exec i { s with st := b } = .next u ∧ u = { t with st := u.st } ∧
      (u.st = b ∨ u.st = t.st ∧ ∃ x, i = .ldStVx x)

/-- R25: a stack slot at or above SP is never read before it is written: changing such slots changes nothing an
instruction does but those slots. -/
def Obligations.FreeStackSlotsAreNeverRead : Prop :=
  ∀ (i : Instr) (s t : State) (k : Stack), (∀ j : Fin 16, j.val < s.sp.val → k[j] = s.stack[j]) →
    exec i s = .next t →
    ∃ u, exec i { s with stack := k } = .next u ∧ u = { t with stack := u.stack } ∧
      ∀ j : Fin 16, j.val < t.sp.val → u.stack[j] = t.stack[j]

/-- R31: nothing reads IR across a cycle boundary: a cycle whose fetch is in range does the same whatever IR held. -/
def Obligations.OldInstructionIsNeverRead : Prop :=
  ∀ (s : State) (ts : List Turn) (w : Word), s.cycleNext ts → s.fetchable → step { s with ir := w } = step s

/-- R64, R207: a store into the bytes that are fetched next is seen by the very next fetch: LD [I], Vx with I = PC and
x ≥ 1 makes V[0] and V[1] the next word. -/
def Obligations.StoreIsSeenByNextFetch : Prop :=
  ∀ (x : Nibble) (s : State) (ts : List Turn),
    s.i = s.pc → 1 ≤ x.toNat → s.pc.toNat + x.toNat < 4096 → s.cycleNext ts → s.running →
    ∃ t u, exec (.ldMemVx x) s = .next t ∧ step t = .next u ∧
      u.ir.toNat = (s.readV 0).toNat * 256 + (s.readV 1).toNat

/-- R213 (D28, log 28): from a stop point every cycle leaves the machine's state unchanged except for IR, and it is a
stop point still. -/
def Obligations.StopPointIsStable : Prop :=
  ∀ (s : State) (ts : List Turn), s.running → s.cycleNext ts → s.atStopPoint →
    ∃ t, step s = .next t ∧ t = { s with ir := s.nextWord, turns := ts, boot := .running } ∧ t.atStopPoint

/-- R205, R61 (log 13): after the first cycle no load happens until the next reset; and a boot whose moves keep the
order keeps it at every step, never comes to a load the machine has no move for, and runs no unlisted cycle before a
load. -/
def Obligations.BootOrderIsKept : Prop :=
  (∀ (s t : State) (ts : List Turn), s.cycleNext ts → step s = .next t → t.boot = .running) ∧
  (∀ s t : State, s.boot = .running → step s = .next t →
    t.boot = .running ∨ ∃ l ts, s.turns = .external (.reset l) :: ts) ∧
  ∀ s : State, bootOrder s.boot s.turns = true →
    (∀ t, step s = .next t → bootOrder t.boot t.turns = true) ∧ step s ≠ .fault .loadAfterBoot ∧
      ∀ ts, s.cycleNext ts → s.boot ≠ .constructed
end

