-- ==== Sys2Proof/Laws/State.lean ====
section
/-! SUPPORT. Each field after each named update of the state: one lemma per field per update, so that no proof unfolds a
record update. -/

namespace Sys2Proof.Machine

open Sys2Proof

variable (s : State)

/-! `writeV` writes `v` alone. -/

@[simp] theorem State.writeV_v (x : Nibble) (b : Byte) : (s.writeV x b).v = regSet s.v x b := rfl
@[simp] theorem State.writeV_i (x : Nibble) (b : Byte) : (s.writeV x b).i = s.i := rfl
@[simp] theorem State.writeV_pc (x : Nibble) (b : Byte) : (s.writeV x b).pc = s.pc := rfl
@[simp] theorem State.writeV_sp (x : Nibble) (b : Byte) : (s.writeV x b).sp = s.sp := rfl
@[simp] theorem State.writeV_stack (x : Nibble) (b : Byte) : (s.writeV x b).stack = s.stack := rfl
@[simp] theorem State.writeV_dt (x : Nibble) (b : Byte) : (s.writeV x b).dt = s.dt := rfl
@[simp] theorem State.writeV_st (x : Nibble) (b : Byte) : (s.writeV x b).st = s.st := rfl
@[simp] theorem State.writeV_keys (x : Nibble) (b : Byte) : (s.writeV x b).keys = s.keys := rfl
@[simp] theorem State.writeV_fb (x : Nibble) (b : Byte) : (s.writeV x b).fb = s.fb := rfl
@[simp] theorem State.writeV_mem (x : Nibble) (b : Byte) : (s.writeV x b).mem = s.mem := rfl
@[simp] theorem State.writeV_ir (x : Nibble) (b : Byte) : (s.writeV x b).ir = s.ir := rfl
@[simp] theorem State.writeV_fault (x : Nibble) (b : Byte) : (s.writeV x b).fault = s.fault := rfl
@[simp] theorem State.writeV_sysMode (x : Nibble) (b : Byte) : (s.writeV x b).sysMode = s.sysMode := rfl
@[simp] theorem State.writeV_fontBase (x : Nibble) (b : Byte) : (s.writeV x b).fontBase = s.fontBase := rfl
@[simp] theorem State.writeV_draws (x : Nibble) (b : Byte) : (s.writeV x b).draws = s.draws := rfl
@[simp] theorem State.writeV_turns (x : Nibble) (b : Byte) : (s.writeV x b).turns = s.turns := rfl
@[simp] theorem State.writeV_boot (x : Nibble) (b : Byte) : (s.writeV x b).boot = s.boot := rfl

/-! `writeRegs` writes `v` alone. -/

@[simp] theorem State.writeRegs_v (r : Regs) : (s.writeRegs r).v = r := rfl
@[simp] theorem State.writeRegs_i (r : Regs) : (s.writeRegs r).i = s.i := rfl
@[simp] theorem State.writeRegs_pc (r : Regs) : (s.writeRegs r).pc = s.pc := rfl
@[simp] theorem State.writeRegs_sp (r : Regs) : (s.writeRegs r).sp = s.sp := rfl
@[simp] theorem State.writeRegs_stack (r : Regs) : (s.writeRegs r).stack = s.stack := rfl
@[simp] theorem State.writeRegs_dt (r : Regs) : (s.writeRegs r).dt = s.dt := rfl
@[simp] theorem State.writeRegs_st (r : Regs) : (s.writeRegs r).st = s.st := rfl
@[simp] theorem State.writeRegs_keys (r : Regs) : (s.writeRegs r).keys = s.keys := rfl
@[simp] theorem State.writeRegs_fb (r : Regs) : (s.writeRegs r).fb = s.fb := rfl
@[simp] theorem State.writeRegs_mem (r : Regs) : (s.writeRegs r).mem = s.mem := rfl
@[simp] theorem State.writeRegs_ir (r : Regs) : (s.writeRegs r).ir = s.ir := rfl
@[simp] theorem State.writeRegs_fault (r : Regs) : (s.writeRegs r).fault = s.fault := rfl
@[simp] theorem State.writeRegs_sysMode (r : Regs) : (s.writeRegs r).sysMode = s.sysMode := rfl
@[simp] theorem State.writeRegs_fontBase (r : Regs) : (s.writeRegs r).fontBase = s.fontBase := rfl
@[simp] theorem State.writeRegs_draws (r : Regs) : (s.writeRegs r).draws = s.draws := rfl
@[simp] theorem State.writeRegs_turns (r : Regs) : (s.writeRegs r).turns = s.turns := rfl
@[simp] theorem State.writeRegs_boot (r : Regs) : (s.writeRegs r).boot = s.boot := rfl

/-! `writeI` writes `i` alone. -/

@[simp] theorem State.writeI_v (w : Word) : (s.writeI w).v = s.v := rfl
@[simp] theorem State.writeI_i (w : Word) : (s.writeI w).i = w := rfl
@[simp] theorem State.writeI_pc (w : Word) : (s.writeI w).pc = s.pc := rfl
@[simp] theorem State.writeI_sp (w : Word) : (s.writeI w).sp = s.sp := rfl
@[simp] theorem State.writeI_stack (w : Word) : (s.writeI w).stack = s.stack := rfl
@[simp] theorem State.writeI_dt (w : Word) : (s.writeI w).dt = s.dt := rfl
@[simp] theorem State.writeI_st (w : Word) : (s.writeI w).st = s.st := rfl
@[simp] theorem State.writeI_keys (w : Word) : (s.writeI w).keys = s.keys := rfl
@[simp] theorem State.writeI_fb (w : Word) : (s.writeI w).fb = s.fb := rfl
@[simp] theorem State.writeI_mem (w : Word) : (s.writeI w).mem = s.mem := rfl
@[simp] theorem State.writeI_ir (w : Word) : (s.writeI w).ir = s.ir := rfl
@[simp] theorem State.writeI_fault (w : Word) : (s.writeI w).fault = s.fault := rfl
@[simp] theorem State.writeI_sysMode (w : Word) : (s.writeI w).sysMode = s.sysMode := rfl
@[simp] theorem State.writeI_fontBase (w : Word) : (s.writeI w).fontBase = s.fontBase := rfl
@[simp] theorem State.writeI_draws (w : Word) : (s.writeI w).draws = s.draws := rfl
@[simp] theorem State.writeI_turns (w : Word) : (s.writeI w).turns = s.turns := rfl
@[simp] theorem State.writeI_boot (w : Word) : (s.writeI w).boot = s.boot := rfl

/-! `writePc` writes `pc` alone. -/

@[simp] theorem State.writePc_v (w : Word) : (s.writePc w).v = s.v := rfl
@[simp] theorem State.writePc_i (w : Word) : (s.writePc w).i = s.i := rfl
@[simp] theorem State.writePc_pc (w : Word) : (s.writePc w).pc = w := rfl
@[simp] theorem State.writePc_sp (w : Word) : (s.writePc w).sp = s.sp := rfl
@[simp] theorem State.writePc_stack (w : Word) : (s.writePc w).stack = s.stack := rfl
@[simp] theorem State.writePc_dt (w : Word) : (s.writePc w).dt = s.dt := rfl
@[simp] theorem State.writePc_st (w : Word) : (s.writePc w).st = s.st := rfl
@[simp] theorem State.writePc_keys (w : Word) : (s.writePc w).keys = s.keys := rfl
@[simp] theorem State.writePc_fb (w : Word) : (s.writePc w).fb = s.fb := rfl
@[simp] theorem State.writePc_mem (w : Word) : (s.writePc w).mem = s.mem := rfl
@[simp] theorem State.writePc_ir (w : Word) : (s.writePc w).ir = s.ir := rfl
@[simp] theorem State.writePc_fault (w : Word) : (s.writePc w).fault = s.fault := rfl
@[simp] theorem State.writePc_sysMode (w : Word) : (s.writePc w).sysMode = s.sysMode := rfl
@[simp] theorem State.writePc_fontBase (w : Word) : (s.writePc w).fontBase = s.fontBase := rfl
@[simp] theorem State.writePc_draws (w : Word) : (s.writePc w).draws = s.draws := rfl
@[simp] theorem State.writePc_turns (w : Word) : (s.writePc w).turns = s.turns := rfl
@[simp] theorem State.writePc_boot (w : Word) : (s.writePc w).boot = s.boot := rfl

/-! `writeDt` writes `dt` alone. -/

@[simp] theorem State.writeDt_v (b : Byte) : (s.writeDt b).v = s.v := rfl
@[simp] theorem State.writeDt_i (b : Byte) : (s.writeDt b).i = s.i := rfl
@[simp] theorem State.writeDt_pc (b : Byte) : (s.writeDt b).pc = s.pc := rfl
@[simp] theorem State.writeDt_sp (b : Byte) : (s.writeDt b).sp = s.sp := rfl
@[simp] theorem State.writeDt_stack (b : Byte) : (s.writeDt b).stack = s.stack := rfl
@[simp] theorem State.writeDt_dt (b : Byte) : (s.writeDt b).dt = b := rfl
@[simp] theorem State.writeDt_st (b : Byte) : (s.writeDt b).st = s.st := rfl
@[simp] theorem State.writeDt_keys (b : Byte) : (s.writeDt b).keys = s.keys := rfl
@[simp] theorem State.writeDt_fb (b : Byte) : (s.writeDt b).fb = s.fb := rfl
@[simp] theorem State.writeDt_mem (b : Byte) : (s.writeDt b).mem = s.mem := rfl
@[simp] theorem State.writeDt_ir (b : Byte) : (s.writeDt b).ir = s.ir := rfl
@[simp] theorem State.writeDt_fault (b : Byte) : (s.writeDt b).fault = s.fault := rfl
@[simp] theorem State.writeDt_sysMode (b : Byte) : (s.writeDt b).sysMode = s.sysMode := rfl
@[simp] theorem State.writeDt_fontBase (b : Byte) : (s.writeDt b).fontBase = s.fontBase := rfl
@[simp] theorem State.writeDt_draws (b : Byte) : (s.writeDt b).draws = s.draws := rfl
@[simp] theorem State.writeDt_turns (b : Byte) : (s.writeDt b).turns = s.turns := rfl
@[simp] theorem State.writeDt_boot (b : Byte) : (s.writeDt b).boot = s.boot := rfl

/-! `writeSt` writes `st` alone. -/

@[simp] theorem State.writeSt_v (b : Byte) : (s.writeSt b).v = s.v := rfl
@[simp] theorem State.writeSt_i (b : Byte) : (s.writeSt b).i = s.i := rfl
@[simp] theorem State.writeSt_pc (b : Byte) : (s.writeSt b).pc = s.pc := rfl
@[simp] theorem State.writeSt_sp (b : Byte) : (s.writeSt b).sp = s.sp := rfl
@[simp] theorem State.writeSt_stack (b : Byte) : (s.writeSt b).stack = s.stack := rfl
@[simp] theorem State.writeSt_dt (b : Byte) : (s.writeSt b).dt = s.dt := rfl
@[simp] theorem State.writeSt_st (b : Byte) : (s.writeSt b).st = b := rfl
@[simp] theorem State.writeSt_keys (b : Byte) : (s.writeSt b).keys = s.keys := rfl
@[simp] theorem State.writeSt_fb (b : Byte) : (s.writeSt b).fb = s.fb := rfl
@[simp] theorem State.writeSt_mem (b : Byte) : (s.writeSt b).mem = s.mem := rfl
@[simp] theorem State.writeSt_ir (b : Byte) : (s.writeSt b).ir = s.ir := rfl
@[simp] theorem State.writeSt_fault (b : Byte) : (s.writeSt b).fault = s.fault := rfl
@[simp] theorem State.writeSt_sysMode (b : Byte) : (s.writeSt b).sysMode = s.sysMode := rfl
@[simp] theorem State.writeSt_fontBase (b : Byte) : (s.writeSt b).fontBase = s.fontBase := rfl
@[simp] theorem State.writeSt_draws (b : Byte) : (s.writeSt b).draws = s.draws := rfl
@[simp] theorem State.writeSt_turns (b : Byte) : (s.writeSt b).turns = s.turns := rfl
@[simp] theorem State.writeSt_boot (b : Byte) : (s.writeSt b).boot = s.boot := rfl

/-! `writeKeys` writes `keys` alone. -/

@[simp] theorem State.writeKeys_v (k : Keys) : (s.writeKeys k).v = s.v := rfl
@[simp] theorem State.writeKeys_i (k : Keys) : (s.writeKeys k).i = s.i := rfl
@[simp] theorem State.writeKeys_pc (k : Keys) : (s.writeKeys k).pc = s.pc := rfl
@[simp] theorem State.writeKeys_sp (k : Keys) : (s.writeKeys k).sp = s.sp := rfl
@[simp] theorem State.writeKeys_stack (k : Keys) : (s.writeKeys k).stack = s.stack := rfl
@[simp] theorem State.writeKeys_dt (k : Keys) : (s.writeKeys k).dt = s.dt := rfl
@[simp] theorem State.writeKeys_st (k : Keys) : (s.writeKeys k).st = s.st := rfl
@[simp] theorem State.writeKeys_keys (k : Keys) : (s.writeKeys k).keys = k := rfl
@[simp] theorem State.writeKeys_fb (k : Keys) : (s.writeKeys k).fb = s.fb := rfl
@[simp] theorem State.writeKeys_mem (k : Keys) : (s.writeKeys k).mem = s.mem := rfl
@[simp] theorem State.writeKeys_ir (k : Keys) : (s.writeKeys k).ir = s.ir := rfl
@[simp] theorem State.writeKeys_fault (k : Keys) : (s.writeKeys k).fault = s.fault := rfl
@[simp] theorem State.writeKeys_sysMode (k : Keys) : (s.writeKeys k).sysMode = s.sysMode := rfl
@[simp] theorem State.writeKeys_fontBase (k : Keys) : (s.writeKeys k).fontBase = s.fontBase := rfl
@[simp] theorem State.writeKeys_draws (k : Keys) : (s.writeKeys k).draws = s.draws := rfl
@[simp] theorem State.writeKeys_turns (k : Keys) : (s.writeKeys k).turns = s.turns := rfl
@[simp] theorem State.writeKeys_boot (k : Keys) : (s.writeKeys k).boot = s.boot := rfl

/-! `writeFb` writes `fb` alone. -/

@[simp] theorem State.writeFb_v (f : Framebuffer) : (s.writeFb f).v = s.v := rfl
@[simp] theorem State.writeFb_i (f : Framebuffer) : (s.writeFb f).i = s.i := rfl
@[simp] theorem State.writeFb_pc (f : Framebuffer) : (s.writeFb f).pc = s.pc := rfl
@[simp] theorem State.writeFb_sp (f : Framebuffer) : (s.writeFb f).sp = s.sp := rfl
@[simp] theorem State.writeFb_stack (f : Framebuffer) : (s.writeFb f).stack = s.stack := rfl
@[simp] theorem State.writeFb_dt (f : Framebuffer) : (s.writeFb f).dt = s.dt := rfl
@[simp] theorem State.writeFb_st (f : Framebuffer) : (s.writeFb f).st = s.st := rfl
@[simp] theorem State.writeFb_keys (f : Framebuffer) : (s.writeFb f).keys = s.keys := rfl
@[simp] theorem State.writeFb_fb (f : Framebuffer) : (s.writeFb f).fb = f := rfl
@[simp] theorem State.writeFb_mem (f : Framebuffer) : (s.writeFb f).mem = s.mem := rfl
@[simp] theorem State.writeFb_ir (f : Framebuffer) : (s.writeFb f).ir = s.ir := rfl
@[simp] theorem State.writeFb_fault (f : Framebuffer) : (s.writeFb f).fault = s.fault := rfl
@[simp] theorem State.writeFb_sysMode (f : Framebuffer) : (s.writeFb f).sysMode = s.sysMode := rfl
@[simp] theorem State.writeFb_fontBase (f : Framebuffer) : (s.writeFb f).fontBase = s.fontBase := rfl
@[simp] theorem State.writeFb_draws (f : Framebuffer) : (s.writeFb f).draws = s.draws := rfl
@[simp] theorem State.writeFb_turns (f : Framebuffer) : (s.writeFb f).turns = s.turns := rfl
@[simp] theorem State.writeFb_boot (f : Framebuffer) : (s.writeFb f).boot = s.boot := rfl

/-! `writeMem` writes `mem` alone. -/

@[simp] theorem State.writeMem_v (m : Memory) : (s.writeMem m).v = s.v := rfl
@[simp] theorem State.writeMem_i (m : Memory) : (s.writeMem m).i = s.i := rfl
@[simp] theorem State.writeMem_pc (m : Memory) : (s.writeMem m).pc = s.pc := rfl
@[simp] theorem State.writeMem_sp (m : Memory) : (s.writeMem m).sp = s.sp := rfl
@[simp] theorem State.writeMem_stack (m : Memory) : (s.writeMem m).stack = s.stack := rfl
@[simp] theorem State.writeMem_dt (m : Memory) : (s.writeMem m).dt = s.dt := rfl
@[simp] theorem State.writeMem_st (m : Memory) : (s.writeMem m).st = s.st := rfl
@[simp] theorem State.writeMem_keys (m : Memory) : (s.writeMem m).keys = s.keys := rfl
@[simp] theorem State.writeMem_fb (m : Memory) : (s.writeMem m).fb = s.fb := rfl
@[simp] theorem State.writeMem_mem (m : Memory) : (s.writeMem m).mem = m := rfl
@[simp] theorem State.writeMem_ir (m : Memory) : (s.writeMem m).ir = s.ir := rfl
@[simp] theorem State.writeMem_fault (m : Memory) : (s.writeMem m).fault = s.fault := rfl
@[simp] theorem State.writeMem_sysMode (m : Memory) : (s.writeMem m).sysMode = s.sysMode := rfl
@[simp] theorem State.writeMem_fontBase (m : Memory) : (s.writeMem m).fontBase = s.fontBase := rfl
@[simp] theorem State.writeMem_draws (m : Memory) : (s.writeMem m).draws = s.draws := rfl
@[simp] theorem State.writeMem_turns (m : Memory) : (s.writeMem m).turns = s.turns := rfl
@[simp] theorem State.writeMem_boot (m : Memory) : (s.writeMem m).boot = s.boot := rfl

/-! `writeIr` writes `ir` alone. -/

@[simp] theorem State.writeIr_v (w : Word) : (s.writeIr w).v = s.v := rfl
@[simp] theorem State.writeIr_i (w : Word) : (s.writeIr w).i = s.i := rfl
@[simp] theorem State.writeIr_pc (w : Word) : (s.writeIr w).pc = s.pc := rfl
@[simp] theorem State.writeIr_sp (w : Word) : (s.writeIr w).sp = s.sp := rfl
@[simp] theorem State.writeIr_stack (w : Word) : (s.writeIr w).stack = s.stack := rfl
@[simp] theorem State.writeIr_dt (w : Word) : (s.writeIr w).dt = s.dt := rfl
@[simp] theorem State.writeIr_st (w : Word) : (s.writeIr w).st = s.st := rfl
@[simp] theorem State.writeIr_keys (w : Word) : (s.writeIr w).keys = s.keys := rfl
@[simp] theorem State.writeIr_fb (w : Word) : (s.writeIr w).fb = s.fb := rfl
@[simp] theorem State.writeIr_mem (w : Word) : (s.writeIr w).mem = s.mem := rfl
@[simp] theorem State.writeIr_ir (w : Word) : (s.writeIr w).ir = w := rfl
@[simp] theorem State.writeIr_fault (w : Word) : (s.writeIr w).fault = s.fault := rfl
@[simp] theorem State.writeIr_sysMode (w : Word) : (s.writeIr w).sysMode = s.sysMode := rfl
@[simp] theorem State.writeIr_fontBase (w : Word) : (s.writeIr w).fontBase = s.fontBase := rfl
@[simp] theorem State.writeIr_draws (w : Word) : (s.writeIr w).draws = s.draws := rfl
@[simp] theorem State.writeIr_turns (w : Word) : (s.writeIr w).turns = s.turns := rfl
@[simp] theorem State.writeIr_boot (w : Word) : (s.writeIr w).boot = s.boot := rfl

/-! `countDraw` writes `draws` alone. -/

@[simp] theorem State.countDraw_v : (s.countDraw).v = s.v := rfl
@[simp] theorem State.countDraw_i : (s.countDraw).i = s.i := rfl
@[simp] theorem State.countDraw_pc : (s.countDraw).pc = s.pc := rfl
@[simp] theorem State.countDraw_sp : (s.countDraw).sp = s.sp := rfl
@[simp] theorem State.countDraw_stack : (s.countDraw).stack = s.stack := rfl
@[simp] theorem State.countDraw_dt : (s.countDraw).dt = s.dt := rfl
@[simp] theorem State.countDraw_st : (s.countDraw).st = s.st := rfl
@[simp] theorem State.countDraw_keys : (s.countDraw).keys = s.keys := rfl
@[simp] theorem State.countDraw_fb : (s.countDraw).fb = s.fb := rfl
@[simp] theorem State.countDraw_mem : (s.countDraw).mem = s.mem := rfl
@[simp] theorem State.countDraw_ir : (s.countDraw).ir = s.ir := rfl
@[simp] theorem State.countDraw_fault : (s.countDraw).fault = s.fault := rfl
@[simp] theorem State.countDraw_sysMode : (s.countDraw).sysMode = s.sysMode := rfl
@[simp] theorem State.countDraw_fontBase : (s.countDraw).fontBase = s.fontBase := rfl
@[simp] theorem State.countDraw_draws : (s.countDraw).draws = s.draws + 1 := rfl
@[simp] theorem State.countDraw_turns : (s.countDraw).turns = s.turns := rfl
@[simp] theorem State.countDraw_boot : (s.countDraw).boot = s.boot := rfl

/-! `writeTurns` writes `turns` alone. -/

@[simp] theorem State.writeTurns_v (ts : List Turn) : (s.writeTurns ts).v = s.v := rfl
@[simp] theorem State.writeTurns_i (ts : List Turn) : (s.writeTurns ts).i = s.i := rfl
@[simp] theorem State.writeTurns_pc (ts : List Turn) : (s.writeTurns ts).pc = s.pc := rfl
@[simp] theorem State.writeTurns_sp (ts : List Turn) : (s.writeTurns ts).sp = s.sp := rfl
@[simp] theorem State.writeTurns_stack (ts : List Turn) : (s.writeTurns ts).stack = s.stack := rfl
@[simp] theorem State.writeTurns_dt (ts : List Turn) : (s.writeTurns ts).dt = s.dt := rfl
@[simp] theorem State.writeTurns_st (ts : List Turn) : (s.writeTurns ts).st = s.st := rfl
@[simp] theorem State.writeTurns_keys (ts : List Turn) : (s.writeTurns ts).keys = s.keys := rfl
@[simp] theorem State.writeTurns_fb (ts : List Turn) : (s.writeTurns ts).fb = s.fb := rfl
@[simp] theorem State.writeTurns_mem (ts : List Turn) : (s.writeTurns ts).mem = s.mem := rfl
@[simp] theorem State.writeTurns_ir (ts : List Turn) : (s.writeTurns ts).ir = s.ir := rfl
@[simp] theorem State.writeTurns_fault (ts : List Turn) : (s.writeTurns ts).fault = s.fault := rfl
@[simp] theorem State.writeTurns_sysMode (ts : List Turn) : (s.writeTurns ts).sysMode = s.sysMode := rfl
@[simp] theorem State.writeTurns_fontBase (ts : List Turn) : (s.writeTurns ts).fontBase = s.fontBase := rfl
@[simp] theorem State.writeTurns_draws (ts : List Turn) : (s.writeTurns ts).draws = s.draws := rfl
@[simp] theorem State.writeTurns_turns (ts : List Turn) : (s.writeTurns ts).turns = ts := rfl
@[simp] theorem State.writeTurns_boot (ts : List Turn) : (s.writeTurns ts).boot = s.boot := rfl

/-! `writeBoot` writes `boot` alone. -/

@[simp] theorem State.writeBoot_v (b : BootPhase) : (s.writeBoot b).v = s.v := rfl
@[simp] theorem State.writeBoot_i (b : BootPhase) : (s.writeBoot b).i = s.i := rfl
@[simp] theorem State.writeBoot_pc (b : BootPhase) : (s.writeBoot b).pc = s.pc := rfl
@[simp] theorem State.writeBoot_sp (b : BootPhase) : (s.writeBoot b).sp = s.sp := rfl
@[simp] theorem State.writeBoot_stack (b : BootPhase) : (s.writeBoot b).stack = s.stack := rfl
@[simp] theorem State.writeBoot_dt (b : BootPhase) : (s.writeBoot b).dt = s.dt := rfl
@[simp] theorem State.writeBoot_st (b : BootPhase) : (s.writeBoot b).st = s.st := rfl
@[simp] theorem State.writeBoot_keys (b : BootPhase) : (s.writeBoot b).keys = s.keys := rfl
@[simp] theorem State.writeBoot_fb (b : BootPhase) : (s.writeBoot b).fb = s.fb := rfl
@[simp] theorem State.writeBoot_mem (b : BootPhase) : (s.writeBoot b).mem = s.mem := rfl
@[simp] theorem State.writeBoot_ir (b : BootPhase) : (s.writeBoot b).ir = s.ir := rfl
@[simp] theorem State.writeBoot_fault (b : BootPhase) : (s.writeBoot b).fault = s.fault := rfl
@[simp] theorem State.writeBoot_sysMode (b : BootPhase) : (s.writeBoot b).sysMode = s.sysMode := rfl
@[simp] theorem State.writeBoot_fontBase (b : BootPhase) : (s.writeBoot b).fontBase = s.fontBase := rfl
@[simp] theorem State.writeBoot_draws (b : BootPhase) : (s.writeBoot b).draws = s.draws := rfl
@[simp] theorem State.writeBoot_turns (b : BootPhase) : (s.writeBoot b).turns = s.turns := rfl
@[simp] theorem State.writeBoot_boot (b : BootPhase) : (s.writeBoot b).boot = b := rfl

/-! `latchFault` writes `fault` alone. -/

@[simp] theorem State.latchFault_v (w : Word) (c : FaultCause) : (s.latchFault w c).v = s.v := rfl
@[simp] theorem State.latchFault_i (w : Word) (c : FaultCause) : (s.latchFault w c).i = s.i := rfl
@[simp] theorem State.latchFault_pc (w : Word) (c : FaultCause) : (s.latchFault w c).pc = s.pc := rfl
@[simp] theorem State.latchFault_sp (w : Word) (c : FaultCause) : (s.latchFault w c).sp = s.sp := rfl
@[simp] theorem State.latchFault_stack (w : Word) (c : FaultCause) : (s.latchFault w c).stack = s.stack := rfl
@[simp] theorem State.latchFault_dt (w : Word) (c : FaultCause) : (s.latchFault w c).dt = s.dt := rfl
@[simp] theorem State.latchFault_st (w : Word) (c : FaultCause) : (s.latchFault w c).st = s.st := rfl
@[simp] theorem State.latchFault_keys (w : Word) (c : FaultCause) : (s.latchFault w c).keys = s.keys := rfl
@[simp] theorem State.latchFault_fb (w : Word) (c : FaultCause) : (s.latchFault w c).fb = s.fb := rfl
@[simp] theorem State.latchFault_mem (w : Word) (c : FaultCause) : (s.latchFault w c).mem = s.mem := rfl
@[simp] theorem State.latchFault_ir (w : Word) (c : FaultCause) : (s.latchFault w c).ir = s.ir := rfl
@[simp] theorem State.latchFault_fault (w : Word) (c : FaultCause) : (s.latchFault w c).fault = some { cause := c, pc0 := w } := rfl
@[simp] theorem State.latchFault_sysMode (w : Word) (c : FaultCause) : (s.latchFault w c).sysMode = s.sysMode := rfl
@[simp] theorem State.latchFault_fontBase (w : Word) (c : FaultCause) : (s.latchFault w c).fontBase = s.fontBase := rfl
@[simp] theorem State.latchFault_draws (w : Word) (c : FaultCause) : (s.latchFault w c).draws = s.draws := rfl
@[simp] theorem State.latchFault_turns (w : Word) (c : FaultCause) : (s.latchFault w c).turns = s.turns := rfl
@[simp] theorem State.latchFault_boot (w : Word) (c : FaultCause) : (s.latchFault w c).boot = s.boot := rfl

/-! `raise` writes `fault` alone. -/

@[simp] theorem State.raise_v (c : FaultCause) : (s.raise c).v = s.v := rfl
@[simp] theorem State.raise_i (c : FaultCause) : (s.raise c).i = s.i := rfl
@[simp] theorem State.raise_pc (c : FaultCause) : (s.raise c).pc = s.pc := rfl
@[simp] theorem State.raise_sp (c : FaultCause) : (s.raise c).sp = s.sp := rfl
@[simp] theorem State.raise_stack (c : FaultCause) : (s.raise c).stack = s.stack := rfl
@[simp] theorem State.raise_dt (c : FaultCause) : (s.raise c).dt = s.dt := rfl
@[simp] theorem State.raise_st (c : FaultCause) : (s.raise c).st = s.st := rfl
@[simp] theorem State.raise_keys (c : FaultCause) : (s.raise c).keys = s.keys := rfl
@[simp] theorem State.raise_fb (c : FaultCause) : (s.raise c).fb = s.fb := rfl
@[simp] theorem State.raise_mem (c : FaultCause) : (s.raise c).mem = s.mem := rfl
@[simp] theorem State.raise_ir (c : FaultCause) : (s.raise c).ir = s.ir := rfl
@[simp] theorem State.raise_fault (c : FaultCause) : (s.raise c).fault = some { cause := c, pc0 := s.pc - 2 } := rfl
@[simp] theorem State.raise_sysMode (c : FaultCause) : (s.raise c).sysMode = s.sysMode := rfl
@[simp] theorem State.raise_fontBase (c : FaultCause) : (s.raise c).fontBase = s.fontBase := rfl
@[simp] theorem State.raise_draws (c : FaultCause) : (s.raise c).draws = s.draws := rfl
@[simp] theorem State.raise_turns (c : FaultCause) : (s.raise c).turns = s.turns := rfl
@[simp] theorem State.raise_boot (c : FaultCause) : (s.raise c).boot = s.boot := rfl

/-! `skip` writes `pc` alone. -/

@[simp] theorem State.skip_v : (s.skip).v = s.v := rfl
@[simp] theorem State.skip_i : (s.skip).i = s.i := rfl
@[simp] theorem State.skip_pc : (s.skip).pc = s.pc + 2 := rfl
@[simp] theorem State.skip_sp : (s.skip).sp = s.sp := rfl
@[simp] theorem State.skip_stack : (s.skip).stack = s.stack := rfl
@[simp] theorem State.skip_dt : (s.skip).dt = s.dt := rfl
@[simp] theorem State.skip_st : (s.skip).st = s.st := rfl
@[simp] theorem State.skip_keys : (s.skip).keys = s.keys := rfl
@[simp] theorem State.skip_fb : (s.skip).fb = s.fb := rfl
@[simp] theorem State.skip_mem : (s.skip).mem = s.mem := rfl
@[simp] theorem State.skip_ir : (s.skip).ir = s.ir := rfl
@[simp] theorem State.skip_fault : (s.skip).fault = s.fault := rfl
@[simp] theorem State.skip_sysMode : (s.skip).sysMode = s.sysMode := rfl
@[simp] theorem State.skip_fontBase : (s.skip).fontBase = s.fontBase := rfl
@[simp] theorem State.skip_draws : (s.skip).draws = s.draws := rfl
@[simp] theorem State.skip_turns : (s.skip).turns = s.turns := rfl
@[simp] theorem State.skip_boot : (s.skip).boot = s.boot := rfl

/-! `beginCycle` writes `turns` and `boot` alone. -/

@[simp] theorem State.beginCycle_v (ts : List Turn) : (s.beginCycle ts).v = s.v := rfl
@[simp] theorem State.beginCycle_i (ts : List Turn) : (s.beginCycle ts).i = s.i := rfl
@[simp] theorem State.beginCycle_pc (ts : List Turn) : (s.beginCycle ts).pc = s.pc := rfl
@[simp] theorem State.beginCycle_sp (ts : List Turn) : (s.beginCycle ts).sp = s.sp := rfl
@[simp] theorem State.beginCycle_stack (ts : List Turn) : (s.beginCycle ts).stack = s.stack := rfl
@[simp] theorem State.beginCycle_dt (ts : List Turn) : (s.beginCycle ts).dt = s.dt := rfl
@[simp] theorem State.beginCycle_st (ts : List Turn) : (s.beginCycle ts).st = s.st := rfl
@[simp] theorem State.beginCycle_keys (ts : List Turn) : (s.beginCycle ts).keys = s.keys := rfl
@[simp] theorem State.beginCycle_fb (ts : List Turn) : (s.beginCycle ts).fb = s.fb := rfl
@[simp] theorem State.beginCycle_mem (ts : List Turn) : (s.beginCycle ts).mem = s.mem := rfl
@[simp] theorem State.beginCycle_ir (ts : List Turn) : (s.beginCycle ts).ir = s.ir := rfl
@[simp] theorem State.beginCycle_fault (ts : List Turn) : (s.beginCycle ts).fault = s.fault := rfl
@[simp] theorem State.beginCycle_sysMode (ts : List Turn) : (s.beginCycle ts).sysMode = s.sysMode := rfl
@[simp] theorem State.beginCycle_fontBase (ts : List Turn) : (s.beginCycle ts).fontBase = s.fontBase := rfl
@[simp] theorem State.beginCycle_draws (ts : List Turn) : (s.beginCycle ts).draws = s.draws := rfl
@[simp] theorem State.beginCycle_turns (ts : List Turn) : (s.beginCycle ts).turns = ts := rfl
@[simp] theorem State.beginCycle_boot (ts : List Turn) : (s.beginCycle ts).boot = .running := rfl

/-! `fetched` writes `ir` and `pc` alone. -/

@[simp] theorem State.fetched_v : s.fetched.v = s.v := rfl
@[simp] theorem State.fetched_i : s.fetched.i = s.i := rfl
@[simp] theorem State.fetched_pc : s.fetched.pc = s.pc + 2 := rfl
@[simp] theorem State.fetched_sp : s.fetched.sp = s.sp := rfl
@[simp] theorem State.fetched_stack : s.fetched.stack = s.stack := rfl
@[simp] theorem State.fetched_dt : s.fetched.dt = s.dt := rfl
@[simp] theorem State.fetched_st : s.fetched.st = s.st := rfl
@[simp] theorem State.fetched_keys : s.fetched.keys = s.keys := rfl
@[simp] theorem State.fetched_fb : s.fetched.fb = s.fb := rfl
@[simp] theorem State.fetched_mem : s.fetched.mem = s.mem := rfl
@[simp] theorem State.fetched_ir : s.fetched.ir = Memory.readWord s.mem s.pc.toNat := rfl
@[simp] theorem State.fetched_fault : s.fetched.fault = s.fault := rfl
@[simp] theorem State.fetched_sysMode : s.fetched.sysMode = s.sysMode := rfl
@[simp] theorem State.fetched_fontBase : s.fetched.fontBase = s.fontBase := rfl
@[simp] theorem State.fetched_draws : s.fetched.draws = s.draws := rfl
@[simp] theorem State.fetched_turns : s.fetched.turns = s.turns := rfl
@[simp] theorem State.fetched_boot : s.fetched.boot = s.boot := rfl

/-! Register reads after updates that leave the registers alone. -/

@[simp] theorem State.writeI_readV (w : Word) (y : Nibble) : (s.writeI w).readV y = s.readV y := rfl
@[simp] theorem State.writePc_readV (w : Word) (y : Nibble) : (s.writePc w).readV y = s.readV y := rfl
@[simp] theorem State.writeDt_readV (b : Byte) (y : Nibble) : (s.writeDt b).readV y = s.readV y := rfl
@[simp] theorem State.writeSt_readV (b : Byte) (y : Nibble) : (s.writeSt b).readV y = s.readV y := rfl
@[simp] theorem State.writeKeys_readV (k : Keys) (y : Nibble) : (s.writeKeys k).readV y = s.readV y := rfl
@[simp] theorem State.writeFb_readV (f : Framebuffer) (y : Nibble) : (s.writeFb f).readV y = s.readV y := rfl
@[simp] theorem State.writeMem_readV (m : Memory) (y : Nibble) : (s.writeMem m).readV y = s.readV y := rfl
@[simp] theorem State.writeIr_readV (w : Word) (y : Nibble) : (s.writeIr w).readV y = s.readV y := rfl
@[simp] theorem State.countDraw_readV (y : Nibble) : (s.countDraw).readV y = s.readV y := rfl
@[simp] theorem State.writeTurns_readV (ts : List Turn) (y : Nibble) : (s.writeTurns ts).readV y = s.readV y := rfl
@[simp] theorem State.writeBoot_readV (b : BootPhase) (y : Nibble) : (s.writeBoot b).readV y = s.readV y := rfl
@[simp] theorem State.latchFault_readV (w : Word) (c : FaultCause) (y : Nibble) : (s.latchFault w c).readV y = s.readV y := rfl
@[simp] theorem State.raise_readV (c : FaultCause) (y : Nibble) : (s.raise c).readV y = s.readV y := rfl
@[simp] theorem State.skip_readV (y : Nibble) : (s.skip).readV y = s.readV y := rfl

/-! The register file. -/

/-- A read of the register just written. -/
@[simp] theorem regGet_regSet_same (v : Regs) (x : Nibble) (b : Byte) : regGet (regSet v x b) x = b := by
  simp [regGet, regSet]

/-- A write leaves every other register alone. -/
theorem regGet_regSet_ne (v : Regs) {x y : Nibble} (b : Byte) (h : y ≠ x) : regGet (regSet v x b) y = regGet v y := by
  have hn : x.toNat ≠ y.toNat := fun e => h (BitVec.eq_of_toNat_eq e.symm)
  simp [regGet, regSet, hn]

/-- A read after a write, in one equation. -/
theorem regGet_regSet (v : Regs) (x y : Nibble) (b : Byte) :
    regGet (regSet v x b) y = if y = x then b else regGet v y := by
  split
  · next h => subst h; exact regGet_regSet_same ..
  · next h => exact regGet_regSet_ne v b h

@[simp] theorem State.readV_writeV_same (x : Nibble) (b : Byte) : (s.writeV x b).readV x = b :=
  regGet_regSet_same ..

theorem State.readV_writeV_ne {x y : Nibble} (b : Byte) (h : y ≠ x) : (s.writeV x b).readV y = s.readV y :=
  regGet_regSet_ne _ b h

theorem State.readV_writeV (x y : Nibble) (b : Byte) :
    (s.writeV x b).readV y = if y = x then b else s.readV y :=
  regGet_regSet ..

/-- Two register files that read alike are equal. -/
theorem regs_ext {v w : Regs} (h : ∀ x : Nibble, regGet v x = regGet w x) : v = w := by
  apply Vector.ext
  intro j hj
  simpa [regGet, Nat.mod_eq_of_lt hj] using h (BitVec.ofNat 4 j)

end Sys2Proof.Machine
end

