-- ==== Sys2Proof/Laws/Memory.lean ====
section
/-! SUPPORT. The laws of memory: a read after a write, byte strings, and that every operation keeps the canonical form. -/

namespace Sys2Proof.Machine

open Sys2Proof

/-! ### Reads after writes -/

theorem Memory.read_erase (m : Memory) (a c : Nat) :
    Memory.read (Memory.erase m a) c = if c = a then Memory.unlisted c else Memory.read m c := by
  induction m with
  | nil => simp [Memory.erase, Memory.read]
  | cons cell rest ih =>
    obtain ⟨k, d⟩ := cell
    by_cases hk : k = a
    · subst hk
      simp only [Memory.erase, if_true, ih, Memory.read]
      by_cases hc : c = k
      · simp [hc]
      · simp [hc, Ne.symm hc]
    · simp only [Memory.erase, hk, if_false, Memory.read, ih]
      by_cases hc : k = c
      · subst hc; simp [hk]
      · simp [hc]

theorem Memory.read_insert_same (m : Memory) (a : Nat) (b : Byte) (h : ∀ d, (a, d) ∉ m) :
    Memory.read (Memory.insert m a b) a = b := by
  induction m with
  | nil => simp [Memory.insert, Memory.read]
  | cons cell rest ih =>
    obtain ⟨k, d⟩ := cell
    have hk : k ≠ a := fun e => h d (by simp [e])
    have hr : ∀ d, (a, d) ∉ rest := fun e he => h e (by simp [he])
    simp only [Memory.insert]
    split
    · simp [Memory.read]
    · simp [Memory.read, hk, ih hr]

theorem Memory.read_insert_ne (m : Memory) (a c : Nat) (b : Byte) (h : c ≠ a) :
    Memory.read (Memory.insert m a b) c = Memory.read m c := by
  induction m with
  | nil => simp [Memory.insert, Memory.read, Ne.symm h]
  | cons cell rest ih =>
    obtain ⟨k, d⟩ := cell
    simp only [Memory.insert]
    split
    · simp [Memory.read, Ne.symm h]
    · simp [Memory.read, ih]

theorem Memory.not_mem_erase (m : Memory) (a : Nat) (d : Byte) : (a, d) ∉ Memory.erase m a := by
  induction m with
  | nil => simp [Memory.erase]
  | cons cell rest ih =>
    obtain ⟨k, e⟩ := cell
    simp only [Memory.erase]
    split
    · exact ih
    · next hk => simp only [List.mem_cons, Prod.mk.injEq, not_or]; exact ⟨fun h => hk h.1.symm, ih⟩

/-- A read after a write of one byte: the byte written at its address, the old byte elsewhere. -/
theorem Memory.read_write (m : Memory) (a c : Nat) (b : Byte) :
    Memory.read (Memory.write m a b) c = if c = a then b else Memory.read m c := by
  unfold Memory.write
  split
  · next hb => rw [Memory.read_erase]; split <;> simp_all
  · split
    · next h => subst h; exact Memory.read_insert_same _ _ _ (Memory.not_mem_erase m c)
    · next h => rw [Memory.read_insert_ne _ _ _ _ h, Memory.read_erase, if_neg h]

/-- A read after a byte string was written: its own byte inside the string, the old byte outside. -/
theorem Memory.read_writeBytes (m : Memory) (a c : Nat) (bs : List Byte) :
    Memory.read (Memory.writeBytes m a bs) c =
      if a ≤ c ∧ c < a + bs.length then bs.getD (c - a) 0 else Memory.read m c := by
  induction bs generalizing m a with
  | nil =>
    have h : ¬ (a ≤ c ∧ c < a + ([] : List Byte).length) := by simp
    rw [if_neg h]; rfl
  | cons b rest ih =>
    simp only [Memory.writeBytes, ih, Memory.read_write, List.length_cons]
    by_cases h1 : a + 1 ≤ c ∧ c < a + 1 + rest.length
    · have h2 : a ≤ c ∧ c < a + (rest.length + 1) := by omega
      have h3 : c - a = (c - (a + 1)) + 1 := by omega
      rw [if_pos h1, if_pos h2, h3, List.getD_cons_succ]
    · by_cases h4 : c = a
      · subst h4; simp
      · have h2 : ¬ (a ≤ c ∧ c < a + (rest.length + 1)) := by omega
        rw [if_neg h1, if_neg h2, if_neg h4]

/-- Every address outside the string written reads as before. -/
theorem Memory.read_writeBytes_outside (m : Memory) (a c : Nat) (bs : List Byte)
    (h : c < a ∨ a + bs.length ≤ c) : Memory.read (Memory.writeBytes m a bs) c = Memory.read m c := by
  rw [Memory.read_writeBytes, if_neg (by omega)]

/-! ### The canonical form -/

theorem Memory.wfFrom_mono {lo lo' : Nat} {m : Memory} (h : lo' ≤ lo) (hm : Memory.wfFrom lo m = true) :
    Memory.wfFrom lo' m = true := by
  cases m with
  | nil => rfl
  | cons cell rest =>
    simp only [Memory.wfFrom, Bool.and_eq_true, decide_eq_true_eq] at hm ⊢
    exact ⟨⟨⟨by omega, hm.1.1.2⟩, hm.1.2⟩, hm.2⟩

theorem Memory.wfFrom_erase {lo : Nat} {m : Memory} (a : Nat) (hm : Memory.wfFrom lo m = true) :
    Memory.wfFrom lo (Memory.erase m a) = true := by
  induction m generalizing lo with
  | nil => rfl
  | cons cell rest ih =>
    obtain ⟨k, d⟩ := cell
    simp only [Memory.wfFrom, Bool.and_eq_true, decide_eq_true_eq] at hm
    simp only [Memory.erase]
    split
    · exact Memory.wfFrom_mono (by omega) (ih hm.2)
    · simp only [Memory.wfFrom, Bool.and_eq_true, decide_eq_true_eq]
      exact ⟨hm.1, ih hm.2⟩

theorem Memory.wfFrom_insert {lo : Nat} {m : Memory} {a : Nat} {b : Byte} (hm : Memory.wfFrom lo m = true)
    (hlo : lo ≤ a) (ha : a < Config.memSize) (hb : b ≠ Memory.unlisted a) (hn : ∀ d, (a, d) ∉ m) :
    Memory.wfFrom lo (Memory.insert m a b) = true := by
  induction m generalizing lo with
  | nil => simp [Memory.insert, Memory.wfFrom, hlo, ha, hb]
  | cons cell rest ih =>
    obtain ⟨k, d⟩ := cell
    simp only [Memory.wfFrom, Bool.and_eq_true, decide_eq_true_eq] at hm
    have hk : k ≠ a := fun e => hn d (by simp [e])
    have hr : ∀ d, (a, d) ∉ rest := fun e he => hn e (by simp [he])
    simp only [Memory.insert]
    split
    · simp only [Memory.wfFrom, Bool.and_eq_true, decide_eq_true_eq]
      exact ⟨⟨⟨hlo, ha⟩, hb⟩, ⟨⟨by omega, hm.1.1.2⟩, hm.1.2⟩, hm.2⟩
    · simp only [Memory.wfFrom, Bool.and_eq_true, decide_eq_true_eq]
      exact ⟨hm.1, ih hm.2 (by omega) hr⟩

/-- A write of one byte inside the address space keeps the canonical form. -/
theorem Memory.wf_write {m : Memory} {a : Nat} {b : Byte} (hm : Memory.wf m = true) (ha : a < Config.memSize) :
    Memory.wf (Memory.write m a b) = true := by
  unfold Memory.write
  split
  · exact Memory.wfFrom_erase a hm
  · next hb =>
    exact Memory.wfFrom_insert (Memory.wfFrom_erase a hm) (Nat.zero_le a) ha hb (Memory.not_mem_erase m a)

/-- A byte string written inside the address space keeps the canonical form. -/
theorem Memory.wf_writeBytes {m : Memory} {a : Nat} {bs : List Byte} (hm : Memory.wf m = true)
    (ha : a + bs.length ≤ Config.memSize) : Memory.wf (Memory.writeBytes m a bs) = true := by
  induction bs generalizing m a with
  | nil => exact hm
  | cons b rest ih =>
    simp only [List.length_cons] at ha
    exact ih (Memory.wf_write hm (by omega)) (by omega)

/-- The memory of `State.reset` is in canonical form. -/
theorem reset_memory_wf : Memory.wf State.reset.mem = true := rfl

end Sys2Proof.Machine
end

