-- ==== Sys2Proof/Laws/Ops.lean ====
section
/-! SUPPORT. One lemma per shared operation of the machine: everything it can do. -/

namespace Sys2Proof.Machine

open Sys2Proof

/-! ### The range check -/

/-- CheckRange passes exactly when every address of the range is below 4096. -/
theorem checkRange_eq_none {addr n : Nat} : checkRange addr n = none ↔ n = 0 ∨ addr + n ≤ 4096 := by
  unfold checkRange
  by_cases h : n = 0 ∨ addr + n ≤ Config.memSize
  · rw [if_pos h]; exact ⟨fun _ => h, fun _ => rfl⟩
  · rw [if_neg h]; exact ⟨fun e => by simp at e, fun e => absurd e h⟩

/-- CheckRange reports max(addr, 4096) exactly when some address of the range is 4096 or more. -/
theorem checkRange_eq_some {addr n a : Nat} :
    checkRange addr n = some a ↔ n ≠ 0 ∧ 4096 < addr + n ∧ a = max addr 4096 := by
  unfold checkRange
  by_cases h : n = 0 ∨ addr + n ≤ Config.memSize
  · rw [if_pos h]
    simp only [Config.memSize] at h
    exact ⟨fun e => by simp at e, fun e => absurd h (by omega)⟩
  · rw [if_neg h]
    simp only [Config.memSize] at h ⊢
    rw [Option.some.injEq]
    exact ⟨fun e => ⟨by omega, by omega, e.symm⟩, fun e => e.2.2.symm⟩

/-- The address CheckRange reports is the lowest out-of-range address of the range (00_scope.md R10). -/
theorem checkRange_lowest {addr n a : Nat} (h : checkRange addr n = some a) :
    (addr ≤ a ∧ a < addr + n ∧ 4096 ≤ a) ∧ ∀ c, addr ≤ c → c < a → c < 4096 := by
  obtain ⟨h0, h1, rfl⟩ := checkRange_eq_some.1 h
  exact ⟨by omega, fun c _ hc => by omega⟩

/-! ### Guarded accesses -/

/-- A guarded access that passes its check runs its body. -/
theorem guardRange_ok {acc : Access} {addr n : Nat} {s : State} (body : State → State)
    (h : n = 0 ∨ addr + n ≤ 4096) : guardRange acc addr n s body = .next (body s) := by
  simp [guardRange, checkRange_eq_none.2 h]

/-- A guarded access that fails its check raises BoundsViolation with the lowest out-of-range address. -/
theorem guardRange_fault {acc : Access} {addr n : Nat} {s : State} (body : State → State)
    (h0 : n ≠ 0) (h : 4096 < addr + n) :
    guardRange acc addr n s body = .next (s.raise (.boundsViolation acc (max addr 4096))) := by
  simp [guardRange, checkRange_eq_some.2 ⟨h0, h, rfl⟩]

/-- Everything a guarded access can do. -/
theorem guardRange_cases {acc : Access} {addr n : Nat} {s t : State} {body : State → State}
    (h : guardRange acc addr n s body = .next t) :
    (n = 0 ∨ addr + n ≤ 4096) ∧ t = body s ∨
    n ≠ 0 ∧ 4096 < addr + n ∧ t = s.raise (.boundsViolation acc (max addr 4096)) := by
  by_cases hc : n = 0 ∨ addr + n ≤ 4096
  · rw [guardRange_ok body hc] at h
    exact .inl ⟨hc, by injection h with h; exact h.symm⟩
  · rw [guardRange_fault body (by omega) (by omega)] at h
    exact .inr ⟨by omega, by omega, by injection h with h; exact h.symm⟩

/-! ### The call stack -/

/-- CALL's push below depth 16. -/
theorem pushPc_ok {s : State} (body : State → State) (h : s.sp.val < 16) :
    pushPc s body =
      .next (body { s with stack := s.stack.set s.sp.val s.pc h, sp := ⟨s.sp.val + 1, by omega⟩ }) := by
  simp [pushPc, h]

/-- CALL's push at depth 16. -/
theorem pushPc_full {s : State} (body : State → State) (h : s.sp.val = 16) :
    pushPc s body = .next (s.raise (.stackOverflow 16)) := by
  simp [pushPc, h]

/-- Everything a push can do. -/
theorem pushPc_cases {s t : State} {body : State → State} (h : pushPc s body = .next t) :
    (∃ hs : s.sp.val < 16,
      t = body { s with stack := s.stack.set s.sp.val s.pc hs, sp := ⟨s.sp.val + 1, by omega⟩ }) ∨
    s.sp.val = 16 ∧ t = s.raise (.stackOverflow 16) := by
  by_cases hs : s.sp.val < 16
  · rw [pushPc_ok body hs] at h
    exact .inl ⟨hs, by injection h with h; exact h.symm⟩
  · have h16 : s.sp.val = 16 := by omega
    rw [pushPc_full body h16] at h
    exact .inr ⟨h16, by injection h with h; exact h.symm⟩

/-- RET's pop of a pending call. -/
theorem popPc_ok {s : State} (h : s.sp.val ≠ 0) :
    popPc s =
      .next { s with sp := ⟨s.sp.val - 1, by omega⟩, pc := s.stack[s.sp.val - 1]'(by omega) } := by
  simp [popPc, h]

/-- RET's pop with no pending call. -/
theorem popPc_empty {s : State} (h : s.sp.val = 0) : popPc s = .next (s.raise (.stackUnderflow 0)) := by
  simp [popPc, h]

/-- Everything a pop can do. -/
theorem popPc_cases {s t : State} (h : popPc s = .next t) :
    (s.sp.val ≠ 0 ∧
      t = { s with sp := ⟨s.sp.val - 1, by omega⟩, pc := s.stack[s.sp.val - 1]'(by omega) }) ∨
    s.sp.val = 0 ∧ t = s.raise (.stackUnderflow 0) := by
  by_cases hs : s.sp.val = 0
  · rw [popPc_empty hs] at h
    exact .inr ⟨hs, by injection h with h; exact h.symm⟩
  · rw [popPc_ok hs] at h
    exact .inl ⟨hs, by injection h with h; exact h.symm⟩

/-! ### Skips and keys -/

/-- A taken skip adds 2 to PC and changes nothing else; one not taken changes nothing. -/
theorem skipIf_eq (s : State) (c : Bool) : s.skipIf c = { s with pc := if c then s.pc + 2 else s.pc } := by
  cases c <;> rfl

/-- A key test with an index below 16. -/
theorem skipOnKey_ok {x : Nibble} {want : Bool} {s : State} (h : (s.readV x).toNat < 16) :
    skipOnKey x want s = .next (s.skipIf (s.keys[(s.readV x).toNat] == want)) := by
  simp [skipOnKey, h]

/-- A key test with an index of 16 or more. -/
theorem skipOnKey_fault {x : Nibble} {want : Bool} {s : State} (h : 16 ≤ (s.readV x).toNat) :
    skipOnKey x want s = .next (s.raise (.boundsViolation .keypad (s.readV x).toNat)) := by
  simp [skipOnKey, Nat.not_lt.2 h]

/-- Everything a key test can do. -/
theorem skipOnKey_cases {x : Nibble} {want : Bool} {s t : State} (h : skipOnKey x want s = .next t) :
    (∃ hk : (s.readV x).toNat < 16, t = s.skipIf (s.keys[(s.readV x).toNat] == want)) ∨
    16 ≤ (s.readV x).toNat ∧ t = s.raise (.boundsViolation .keypad (s.readV x).toNat) := by
  by_cases hk : (s.readV x).toNat < 16
  · rw [skipOnKey_ok hk] at h
    exact .inl ⟨hk, by injection h with h; exact h.symm⟩
  · rw [skipOnKey_fault (by omega)] at h
    exact .inr ⟨by omega, by injection h with h; exact h.symm⟩

/-- The lowest pressed key is pressed, and no lower key is. -/
theorem lowestKey_eq_some {k : Keys} {j : Fin 16} (h : lowestKey k = some j) :
    k[j] = true ∧ ∀ i : Fin 16, i < j → k[i] = false := by
  rw [lowestKey, List.find?_eq_some_iff_getElem] at h
  obtain ⟨hj, n, hn, he, hlow⟩ := h
  refine ⟨by simpa using hj, fun i hi => ?_⟩
  have hjn : j.val = n := by simpa using (congrArg Fin.val he).symm
  have := hlow i.val (by rw [← hjn]; exact hi)
  simpa using this

/-- No key is lowest exactly when none is pressed. -/
theorem lowestKey_eq_none {k : Keys} : lowestKey k = none ↔ ∀ j : Fin 16, k[j] = false := by
  simp [lowestKey, List.find?_eq_none]

/-! ### Flags -/

theorem flagThenWrite_eq (flag : Byte) (x : Nibble) (value : State → Byte) (s : State) :
    flagThenWrite flag x value s =
      { s with v := regSet (regSet s.v vf flag) x (value (s.writeV vf flag)) } := rfl

/-- An instruction that writes VF and then V[x] writes the registers alone. -/
theorem flagThenWrite_regs (flag : Byte) (x : Nibble) (value : State → Byte) (s : State) :
    flagThenWrite flag x value s = s.writeRegs (flagThenWrite flag x value s).v := rfl

/-- The flag of a decided condition. -/
theorem flagOf_decide (p : Prop) [Decidable p] : flagOf (decide p) = if p then 1 else 0 := by
  by_cases h : p <;> simp [flagOf, h]

/-- Apart from VF, the value is read from V[x] and the flag from VF. -/
theorem flagThenWrite_readV {x : Nibble} (h : x ≠ 15) (flag : Byte) (value : State → Byte) (s : State) :
    (flagThenWrite flag x value s).readV x = value (s.writeV vf flag) ∧
    (flagThenWrite flag x value s).readV 15 = flag := by
  refine ⟨State.readV_writeV_same _ _ _, ?_⟩
  unfold flagThenWrite
  rw [State.readV_writeV_ne _ _ (Ne.symm h)]
  exact State.readV_writeV_same ..

/-- The flag values are 0 and 1. -/
theorem flagOf_eq (c : Bool) : flagOf c = 0 ∨ flagOf c = 1 := by cases c <;> simp [flagOf]

/-! ### Operand values -/

/-- An address operand is at most 4095. -/
theorem zext12_le (nnn : Addr12) : (zext12 nnn).toNat ≤ 4095 := by
  have := nnn.isLt
  simp [zext12]
  omega

/-- A 12-bit sum, as a number. -/
theorem sum12_toNat (a b : Nat) : (sum12 a b).toNat = (a + b) % 4096 := by
  simp [sum12]
  omega

/-- A glyph's address is never truncated (10_state.md R22). -/
theorem glyphAddress_toNat (f : FontBase) (b : Byte) :
    (glyphAddress f b).toNat = f.val + b.toNat * 5 ∧ (glyphAddress f b).toNat ≤ 0x6AB := by
  have hf := f.isLt
  have hb := b.isLt
  have h : f.val + b.toNat * 5 < 2 ^ 16 := by omega
  simp only [glyphAddress, Config.glyphSize, BitVec.toNat_ofNat, Nat.mod_eq_of_lt h]
  exact ⟨trivial, by omega⟩

/-- LD [I], Vx stores x + 1 bytes. -/
theorem regsUpTo_length (v : Regs) (x : Nibble) : (regsUpTo v x).length = x.toNat + 1 := by
  have := x.isLt
  simp [regsUpTo]
  omega

/-- The j-th byte LD [I], Vx stores is V[j]. -/
theorem regsUpTo_getD (v : Regs) {x j : Nibble} (h : j.toNat ≤ x.toNat) :
    (regsUpTo v x).getD j.toNat 0 = regGet v j := by
  have := j.isLt
  simp [regsUpTo, regGet, List.getD_eq_getElem?_getD, show j.toNat < x.toNat + 1 by omega,
    show j.toNat < 16 by omega]

/-- One tick of one timer, as a number. -/
theorem countDown_toNat (b : Byte) : (countDown b).toNat = b.toNat - 1 := by
  unfold countDown
  split
  · next h => simp [h]
  · next h =>
    have h0 : b.toNat ≠ 0 := fun e => h (BitVec.eq_of_toNat_eq (by simpa using e))
    have := b.isLt
    rw [BitVec.toNat_sub]
    simp
    omega

/-! ### The cycle and the step -/

/-- A faulted core has no step (40_dispatcher.md R95). -/
theorem cycle_faulted {s : State} {r : FaultRecord} (h : s.fault = some r) : cycle s = .fault (.coreStopped r) := by
  simp [cycle, h]

/-- A failed fetch. -/
theorem cycle_fetch_fault {s : State} (hf : s.fault = none) (h : 4095 ≤ s.pc.toNat) :
    cycle s = .next (s.latchFault s.pc (.boundsViolation .fetch (max s.pc.toNat 4096))) := by
  simp [cycle, hf, checkRange_eq_some.2 (show 2 ≠ 0 ∧ 4096 < s.pc.toNat + 2 ∧ _ from ⟨by omega, by omega, rfl⟩)]

/-- A successful fetch goes on to decode and execute. -/
theorem cycle_fetched {s : State} (hf : s.fault = none) (h : s.fetchable) : cycle s = decodeAndExecute s.fetched := by
  have hp : s.pc.toNat ≤ 4094 := h
  simp [cycle, hf, checkRange_eq_none.2 (show 2 = 0 ∨ s.pc.toNat + 2 ≤ 4096 by omega)]

/-- Everything a cycle that answers a next state can do. -/
theorem cycle_cases {s t : State} (h : cycle s = .next t) :
    s.fault = none ∧
    (4095 ≤ s.pc.toNat ∧ t = s.latchFault s.pc (.boundsViolation .fetch (max s.pc.toNat 4096)) ∨
     s.fetchable ∧ (∃ e, decode s.nextWord = .error e) ∧ t = s.fetched.raise (.unknownOpcode s.nextWord) ∨
     s.fetchable ∧ ∃ i, decode s.nextWord = .ok i ∧ exec i s.fetched = .next t) := by
  cases hf : s.fault with
  | some r => rw [cycle_faulted hf] at h; cases h
  | none =>
    refine ⟨rfl, ?_⟩
    by_cases hp : s.pc.toNat ≤ 4094
    · rw [cycle_fetched hf hp] at h
      have hir : s.fetched.ir = s.nextWord := rfl
      unfold decodeAndExecute at h
      rw [hir] at h
      cases hd : decode s.nextWord with
      | ok i => rw [hd] at h; exact .inr (.inr ⟨hp, i, rfl, h⟩)
      | error e => rw [hd] at h; exact .inr (.inl ⟨hp, ⟨e, rfl⟩, by injection h with h; exact h.symm⟩)
    · rw [cycle_fetch_fault hf (by omega)] at h
      exact .inl ⟨by omega, by injection h with h; exact h.symm⟩

/-- A step whose turn is a cycle, listed or not. -/
theorem step_cycleNext {s : State} {ts : List Turn} (h : s.cycleNext ts) : step s = cycle (s.beginCycle ts) := by
  rcases h with h | ⟨h, rfl⟩ <;> simp [step, takeTurn, h]

/-- A step whose turn is an external event. -/
theorem step_external {s : State} {e : Event} {ts : List Turn} (h : s.turns = .external e :: ts) :
    step s = takeEvent e (s.writeTurns ts) := by
  simp [step, takeTurn, h]

/-- Every event but a load may happen at any time (10_state.md R41). -/
theorem mayHappen_of_not_load {e : Event} (s : State) (h : ∀ image, e ≠ .load image) : e.mayHappen s = true := by
  cases e with
  | load image => exact absurd rfl (h image)
  | _ => rfl

/-- A load may happen exactly while no image is accepted and no cycle has been invoked (70_reset_and_hazards.md R205). -/
theorem mayHappen_load {image : List Byte} {s : State} :
    (Event.load image).mayHappen s = true ↔ s.boot = .constructed := by
  simp [Event.mayHappen]

/-- An event that may happen has its effect. -/
theorem takeEvent_ok {e : Event} {s : State} (h : e.mayHappen s = true) : takeEvent e s = .next (applyEvent e s) := by
  simp [takeEvent, h]

/-- A load out of the boot order is no move. -/
theorem takeEvent_refused {image : List Byte} {s : State} (h : s.boot ≠ .constructed) :
    takeEvent (.load image) s = .fault .loadAfterBoot := by
  simp [takeEvent, Event.mayHappen, h]

/-- Everything a step that answers a next state can do. -/
theorem step_cases {s t : State} (h : step s = .next t) :
    (∃ ts, s.cycleNext ts ∧ cycle (s.beginCycle ts) = .next t) ∨
    (∃ e ts, s.turns = .external e :: ts ∧ e.mayHappen s = true ∧ t = applyEvent e (s.writeTurns ts)) := by
  match ht : s.turns with
  | [] => exact .inl ⟨[], .inr ⟨ht, rfl⟩, by rwa [step_cycleNext (.inr ⟨ht, rfl⟩)] at h⟩
  | .cycle :: ts => exact .inl ⟨ts, .inl ht, by rwa [step_cycleNext (.inl ht)] at h⟩
  | .external e :: ts =>
    rw [step_external ht] at h
    by_cases hm : e.mayHappen (s.writeTurns ts) = true
    · rw [takeEvent_ok hm] at h
      refine .inr ⟨e, ts, rfl, ?_, by injection h with h; exact h.symm⟩
      cases e <;> exact hm
    · rw [takeEvent, if_neg hm] at h
      cases h

/-- The launch of `State.reset`: resetting a machine whose own fields are at their reset values gives `State.reset`. -/
theorem reset_is_constructed : State.reset.construct launchOfReset = State.reset := by decide

end Sys2Proof.Machine
end

