-- ==== Sys2Proof/Laws/Display.lean ====
section
/-! SUPPORT. The laws of the framebuffer: reads after a toggle, and what a whole sprite draw does to every cell
(44_display.md R150 to R155). -/

namespace Sys2Proof.Machine

open Sys2Proof

/-! ### Single cells -/

/-- Reads wrap in both coordinates. -/
theorem fbGet_mod (f : Framebuffer) (x y : Nat) : fbGet f (x % 64) (y % 32) = fbGet f x y := by
  simp [fbGet]

/-- A cell named by coordinates in range needs no wrap. -/
theorem fbGet_of_lt (f : Framebuffer) (x y : Nat) (hx : x < 64) (hy : y < 32) : fbGet f x y = (f[y])[x] := by
  simp [fbGet, Nat.mod_eq_of_lt hx, Nat.mod_eq_of_lt hy]

/-- A read after a toggle: the toggled cell is inverted, every other cell is as before. -/
theorem fbGet_fbToggle (f : Framebuffer) (x y cx cy : Nat) :
    fbGet (fbToggle f x y) cx cy = (fbGet f cx cy ^^ decide (x % 64 = cx % 64 ∧ y % 32 = cy % 32)) := by
  by_cases hy : y % 32 = cy % 32
  · by_cases hx : x % 64 = cx % 64
    · simp [fbGet, fbToggle, hx, hy]
    · simp [fbGet, fbToggle, hx, hy]
  · simp [fbGet, fbToggle, hy]

/-- Two framebuffers that read alike on the grid are equal. -/
theorem framebuffer_ext {f g : Framebuffer} (h : ∀ x < 64, ∀ y < 32, fbGet f x y = fbGet g x y) : f = g := by
  apply Vector.ext
  intro y hy
  apply Vector.ext
  intro x hx
  simpa [fbGet, Nat.mod_eq_of_lt hx, Nat.mod_eq_of_lt hy] using h x hx y hy

/-- A cleared framebuffer is off everywhere. -/
theorem fbGet_fbClear (x y : Nat) : fbGet fbClear x y = false := by
  simp [fbGet, fbClear]

/-! ### A sprite as a list of bits with their cells -/

/-- A sprite bit with the (unwrapped) cell it lands on. -/
structure SpriteBit where
  bit : Bool
  x : Nat
  y : Nat

/-- The bits of one row, columns 0 to 7. -/
def rowBits (b : Byte) (ox cy : Nat) : List SpriteBit :=
  (List.range 8).map fun col => { bit := b.getLsbD (7 - col), x := ox + col, y := cy }

/-- The bits of an n-row sprite, row by row. -/
def spriteBits (m : Memory) (a n ox oy : Nat) : List SpriteBit :=
  (List.range n).flatMap fun row => rowBits (Memory.read m (a + row)) ox (oy + row)

theorem blitSprite_eq_foldl (m : Memory) (a n ox oy : Nat) (t : Blit) :
    blitSprite m a n ox oy t = (spriteBits m a n ox oy).foldl (fun u p => blitBit p.bit p.x p.y u) t := by
  simp only [blitSprite, spriteBits, List.foldl_flatMap, blitRow, rowBits, List.foldl_map]

/-- Two bits land on different cells. -/
def SpriteBit.apart (p q : SpriteBit) : Prop := ¬(p.x % 64 = q.x % 64 ∧ p.y % 32 = q.y % 32)

/-- No cell is toggled twice in one draw of at most 32 rows (44_display.md R155 (a)). -/
theorem spriteBits_apart (m : Memory) (a n ox oy : Nat) (hn : n ≤ 32) :
    (spriteBits m a n ox oy).Pairwise SpriteBit.apart := by
  unfold spriteBits
  rw [List.pairwise_flatMap]
  constructor
  · intro row _
    unfold rowBits
    rw [List.pairwise_map]
    refine List.Pairwise.imp_of_mem ?_ List.pairwise_lt_range
    intro c d hc hd hcd
    simp only [List.mem_range] at hc hd
    simp only [SpriteBit.apart]
    omega
  · refine List.Pairwise.imp_of_mem ?_ List.pairwise_lt_range
    intro r q hr hq hrq p hp p' hp'
    simp only [List.mem_range] at hr hq
    simp only [rowBits, List.mem_map] at hp hp'
    obtain ⟨c, -, rfl⟩ := hp
    obtain ⟨d, -, rfl⟩ := hp'
    simp only [SpriteBit.apart]
    omega

/-- A set bit of the list lands on the cell (cx, cy). -/
def lands (ps : List SpriteBit) (cx cy : Nat) : Bool :=
  ps.any fun p => p.bit && decide (p.x % 64 = cx % 64 ∧ p.y % 32 = cy % 32)

/-- A set bit of the list lands on a cell that is on. -/
def meets (ps : List SpriteBit) (f : Framebuffer) : Bool := ps.any fun p => p.bit && fbGet f p.x p.y

/-- Reading a cell after one bit was drawn. -/
theorem fbGet_blitBit (p : SpriteBit) (t : Blit) (cx cy : Nat) :
    fbGet (blitBit p.bit p.x p.y t).fb cx cy =
      (fbGet t.fb cx cy ^^ (p.bit && decide (p.x % 64 = cx % 64 ∧ p.y % 32 = cy % 32))) := by
  cases hb : p.bit
  · simp [blitBit]
  · simp only [blitBit, if_true, fbGet_fbToggle, Bool.true_and]

/-- A bit apart from every bit of the list leaves what the list meets as it was. -/
theorem meets_blitBit {p : SpriteBit} {ps : List SpriteBit} (t : Blit) (h : ∀ q ∈ ps, p.apart q) :
    meets ps (blitBit p.bit p.x p.y t).fb = meets ps t.fb := by
  unfold meets
  rw [Bool.eq_iff_iff, List.any_eq_true, List.any_eq_true]
  have key : ∀ q ∈ ps, fbGet (blitBit p.bit p.x p.y t).fb q.x q.y = fbGet t.fb q.x q.y := by
    intro q hq
    have hd : ¬(p.x % 64 = q.x % 64 ∧ p.y % 32 = q.y % 32) := h q hq
    rw [fbGet_blitBit, decide_eq_false hd, Bool.and_false, Bool.xor_false]
  constructor
  · rintro ⟨q, hq, hb⟩; exact ⟨q, hq, by rwa [key q hq] at hb⟩
  · rintro ⟨q, hq, hb⟩; exact ⟨q, hq, by rwa [key q hq]⟩

/-- Drawing a list of bits on cells apart: each cell is inverted exactly when a set bit lands on it, and the collision is
recorded exactly when a set bit lands on a cell that was on before the draw. -/
theorem foldl_blitBit {ps : List SpriteBit} (h : ps.Pairwise SpriteBit.apart) (t : Blit) :
    (∀ cx cy, fbGet (ps.foldl (fun u p => blitBit p.bit p.x p.y u) t).fb cx cy =
      (fbGet t.fb cx cy ^^ lands ps cx cy)) ∧
    (ps.foldl (fun u p => blitBit p.bit p.x p.y u) t).hit = (t.hit || meets ps t.fb) := by
  induction ps generalizing t with
  | nil => simp [lands, meets]
  | cons p rest ih =>
    obtain ⟨hp, hr⟩ := List.pairwise_cons.1 h
    obtain ⟨hfb, hhit⟩ := ih hr (blitBit p.bit p.x p.y t)
    constructor
    · intro cx cy
      rw [List.foldl_cons, hfb, fbGet_blitBit, Bool.xor_assoc]
      congr 1
      by_cases hd : p.x % 64 = cx % 64 ∧ p.y % 32 = cy % 32
      · cases hb : p.bit
        · simp [lands, hb]
        · have hno : lands rest cx cy = false := by
            unfold lands
            rw [List.any_eq_false]
            intro q hq hc
            simp only [Bool.and_eq_true, decide_eq_true_eq] at hc
            exact hp q hq ⟨hd.1.trans hc.2.1.symm, hd.2.trans hc.2.2.symm⟩
          rw [hno]
          simp [lands, hb, hd]
      · simp [lands, hd]
    · rw [List.foldl_cons, hhit, meets_blitBit t hp]
      cases hb : p.bit <;> simp [blitBit, meets, hb, Bool.or_assoc]

/-- A set bit of the sprite lands on a cell exactly when the sprite covers it. -/
theorem lands_spriteBits {m : Memory} {a n ox oy cx cy : Nat} (hx : cx < 64) (hy : cy < 32) :
    lands (spriteBits m a n ox oy) cx cy = true ↔ SpriteCovers m a n ox oy cx cy := by
  simp only [lands, spriteBits, rowBits, List.any_eq_true, List.mem_flatMap, List.mem_range, List.mem_map,
    Bool.and_eq_true, decide_eq_true_eq, Nat.mod_eq_of_lt hx, Nat.mod_eq_of_lt hy, SpriteCovers]
  constructor
  · rintro ⟨p, ⟨r, hr, c, hc, rfl⟩, hb, h1, h2⟩
    exact ⟨r, hr, c, hc, hb, h1, h2⟩
  · rintro ⟨r, hr, c, hc, hb, h1, h2⟩
    exact ⟨_, ⟨r, hr, c, hc, rfl⟩, hb, h1, h2⟩

/-- A set bit meets an on cell exactly when the sprite covers an on cell of the grid. -/
theorem meets_spriteBits {m : Memory} {a n ox oy : Nat} {f : Framebuffer} :
    meets (spriteBits m a n ox oy) f = true ↔
      ∃ cx < 64, ∃ cy < 32, SpriteCovers m a n ox oy cx cy ∧ fbGet f cx cy = true := by
  simp only [meets, spriteBits, rowBits, List.any_eq_true, List.mem_flatMap, List.mem_range, List.mem_map,
    Bool.and_eq_true, SpriteCovers]
  constructor
  · rintro ⟨p, ⟨r, hr, c, hc, rfl⟩, hb, hf⟩
    exact ⟨(ox + c) % 64, Nat.mod_lt _ (by decide), (oy + r) % 32, Nat.mod_lt _ (by decide),
      ⟨r, hr, c, hc, hb, rfl, rfl⟩, by rwa [fbGet_mod]⟩
  · rintro ⟨cx, hx, cy, hy, ⟨r, hr, c, hc, hb, rfl, rfl⟩, hf⟩
    exact ⟨_, ⟨r, hr, c, hc, rfl⟩, hb, by rwa [fbGet_mod] at hf⟩

/-! ### The whole draw -/

/-- What a sprite draw of at most 32 rows does to every cell, and when it records a collision. -/
theorem blitSprite_spec (m : Memory) (a n ox oy : Nat) (f : Framebuffer) (hn : n ≤ 32) :
    (∀ cx < 64, ∀ cy < 32,
      (fbGet (blitSprite m a n ox oy { fb := f, hit := false }).fb cx cy = !fbGet f cx cy ↔
        SpriteCovers m a n ox oy cx cy)) ∧
    ((blitSprite m a n ox oy { fb := f, hit := false }).hit = true ↔
      ∃ cx < 64, ∃ cy < 32, SpriteCovers m a n ox oy cx cy ∧ fbGet f cx cy = true) := by
  obtain ⟨hfb, hhit⟩ := foldl_blitBit (spriteBits_apart m a n ox oy hn) { fb := f, hit := false }
  rw [← blitSprite_eq_foldl] at hfb hhit
  constructor
  · intro cx hx cy hy
    rw [hfb, ← lands_spriteBits hx hy]
    cases fbGet f cx cy <;> cases lands (spriteBits m a n ox oy) cx cy <;> simp
  · rw [hhit, Bool.false_or, meets_spriteBits]

/-- A draw writes VF and the framebuffer alone. -/
theorem drawSprite_writes (x y n : Nibble) (s : State) :
    drawSprite x y n s =
      (s.writeV vf ((drawSprite x y n s).readV vf)).writeFb (drawSprite x y n s).fb := by
  simp only [drawSprite, State.writeFb_readV, State.readV_writeV_same, State.writeFb_fb]

end Sys2Proof.Machine
end

