-- ==== Sys2Proof/Laws/Encoding.lean ====
section
/-! SUPPORT. The fields of a word built by the encoder, and a word as its fields (30_encoding.md R71). -/

namespace Sys2Proof

/-! ### Fields as numbers -/

theorem opField_toNat (w : Word) : (opField w).toNat = w.toNat / 4096 := by
  simp only [opField, BitVec.extractLsb'_toNat, Nat.shiftRight_eq_div_pow]; omega

theorem nnnField_toNat (w : Word) : (nnnField w).toNat = w.toNat % 4096 := by
  simp [nnnField, BitVec.extractLsb'_toNat]

theorem xField_toNat (w : Word) : (xField w).toNat = w.toNat / 256 % 16 := by
  simp [xField, BitVec.extractLsb'_toNat, Nat.shiftRight_eq_div_pow]

theorem yField_toNat (w : Word) : (yField w).toNat = w.toNat / 16 % 16 := by
  simp [yField, BitVec.extractLsb'_toNat, Nat.shiftRight_eq_div_pow]

theorem kkField_toNat (w : Word) : (kkField w).toNat = w.toNat % 256 := by
  simp [kkField, BitVec.extractLsb'_toNat]

theorem nField_toNat (w : Word) : (nField w).toNat = w.toNat % 16 := by
  simp [nField, BitVec.extractLsb'_toNat]

/-! ### Words as numbers -/

theorem wordNnn_toNat {op : Nat} (h : op < 16) (nnn : Addr12) :
    (wordNnn op nnn).toNat = 4096 * op + nnn.toNat := by
  have := nnn.isLt
  simp only [wordNnn, BitVec.toNat_ofNat]; omega

theorem wordXkk_toNat {op : Nat} (h : op < 16) (x : Nibble) (kk : Byte) :
    (wordXkk op x kk).toNat = 4096 * op + 256 * x.toNat + kk.toNat := by
  have := x.isLt; have := kk.isLt
  simp only [wordXkk, BitVec.toNat_ofNat]; omega

theorem wordXyn_toNat {op : Nat} (h : op < 16) (x y n : Nibble) :
    (wordXyn op x y n).toNat = 4096 * op + 256 * x.toNat + 16 * y.toNat + n.toNat := by
  have := x.isLt; have := y.isLt; have := n.isLt
  simp only [wordXyn, BitVec.toNat_ofNat]; omega

/-! ### Fields of encoded words -/

theorem opField_wordNnn {op : Nat} (h : op < 16) (nnn : Addr12) : (opField (wordNnn op nnn)).toNat = op := by
  have := nnn.isLt
  rw [opField_toNat, wordNnn_toNat h]; omega

theorem opField_wordXkk {op : Nat} (h : op < 16) (x : Nibble) (kk : Byte) :
    (opField (wordXkk op x kk)).toNat = op := by
  have := x.isLt; have := kk.isLt
  rw [opField_toNat, wordXkk_toNat h]; omega

theorem opField_wordXyn {op : Nat} (h : op < 16) (x y n : Nibble) : (opField (wordXyn op x y n)).toNat = op := by
  have := x.isLt; have := y.isLt; have := n.isLt
  rw [opField_toNat, wordXyn_toNat h]; omega

theorem nnnField_wordNnn {op : Nat} (h : op < 16) (nnn : Addr12) : nnnField (wordNnn op nnn) = nnn := by
  have := nnn.isLt
  apply BitVec.eq_of_toNat_eq
  rw [nnnField_toNat, wordNnn_toNat h]; omega

theorem xField_wordXkk {op : Nat} (h : op < 16) (x : Nibble) (kk : Byte) : xField (wordXkk op x kk) = x := by
  have := x.isLt; have := kk.isLt
  apply BitVec.eq_of_toNat_eq
  rw [xField_toNat, wordXkk_toNat h]; omega

theorem kkField_wordXkk {op : Nat} (h : op < 16) (x : Nibble) (kk : Byte) : kkField (wordXkk op x kk) = kk := by
  have := x.isLt; have := kk.isLt
  apply BitVec.eq_of_toNat_eq
  rw [kkField_toNat, wordXkk_toNat h]; omega

theorem xField_wordXyn {op : Nat} (h : op < 16) (x y n : Nibble) : xField (wordXyn op x y n) = x := by
  have := x.isLt; have := y.isLt; have := n.isLt
  apply BitVec.eq_of_toNat_eq
  rw [xField_toNat, wordXyn_toNat h]; omega

theorem yField_wordXyn {op : Nat} (h : op < 16) (x y n : Nibble) : yField (wordXyn op x y n) = y := by
  have := x.isLt; have := y.isLt; have := n.isLt
  apply BitVec.eq_of_toNat_eq
  rw [yField_toNat, wordXyn_toNat h]; omega

theorem nField_wordXyn {op : Nat} (h : op < 16) (x y n : Nibble) : nField (wordXyn op x y n) = n := by
  have := x.isLt; have := y.isLt; have := n.isLt
  apply BitVec.eq_of_toNat_eq
  rw [nField_toNat, wordXyn_toNat h]; omega

/-! ### A word from its fields -/

theorem word_eq_wordNnn (w : Word) : w = wordNnn (opField w).toNat (nnnField w) := by
  have := w.isLt
  apply BitVec.eq_of_toNat_eq
  rw [wordNnn_toNat (opField w).isLt, opField_toNat, nnnField_toNat]; omega

theorem word_eq_wordXkk (w : Word) : w = wordXkk (opField w).toNat (xField w) (kkField w) := by
  have := w.isLt
  apply BitVec.eq_of_toNat_eq
  rw [wordXkk_toNat (opField w).isLt, opField_toNat, xField_toNat, kkField_toNat]; omega

theorem word_eq_wordXyn (w : Word) : w = wordXyn (opField w).toNat (xField w) (yField w) (nField w) := by
  have := w.isLt
  apply BitVec.eq_of_toNat_eq
  rw [wordXyn_toNat (opField w).isLt, opField_toNat, xField_toNat, yField_toNat, nField_toNat]; omega

/-! ### Bytes of words -/

/-- A word is its high byte and its low byte (20_memory.md R53). -/
theorem wordOfBytes_bytes (w : Word) : wordOfBytes (highByte w) (lowByte w) = w := by
  unfold wordOfBytes highByte lowByte
  apply BitVec.eq_of_getLsbD_eq
  intro i hi
  rw [BitVec.getLsbD_append]
  by_cases h : i < 8
  · simp [h]
  · have h8 : i - 8 < 8 := by omega
    have hi' : 8 + (i - 8) = i := by omega
    simp [h, h8, hi']

/-- Two bytes as a number (20_memory.md R53). -/
theorem wordOfBytes_toNat (hi lo : Byte) : (wordOfBytes hi lo).toNat = hi.toNat * 256 + lo.toNat := by
  have h1 := hi.isLt; have h2 := lo.isLt
  unfold wordOfBytes
  rw [BitVec.toNat_append, Nat.shiftLeft_eq, ← Nat.shiftLeft_eq, ← Nat.shiftLeft_add_eq_or_of_lt (by omega),
    Nat.shiftLeft_eq]

end Sys2Proof
end

