-- ==== Sys2Proof/Laws/Exec.lean ====
section
/-! SUPPORT. Once for all instructions: `exec` either raises the fault of the instruction's one check and writes nothing else,
or has the instruction's effect (00_scope.md R10, 60_exceptions.md R178). Whole-machine claims split on `effectOf`. -/

namespace Sys2Proof.Machine

open Sys2Proof

/-- The fault an instruction's check raises in a state, if any (60_exceptions.md R178: at most one check each). -/
def faultOf (i : Instr) (s : State) : Option FaultCause :=
  match i with
  | .sys _ => if s.sysMode = .fault then some (.unknownOpcode s.ir) else none
  | .ret => if s.sp.val = 0 then some (.stackUnderflow 0) else none
  | .call _ => if s.sp.val = 16 then some (.stackOverflow 16) else none
  | .drw _ _ n => (checkRange s.i.toNat n.toNat).map (.boundsViolation .sprite)
  | .skp x | .sknp x =>
    if 16 ≤ (s.readV x).toNat then some (.boundsViolation .keypad (s.readV x).toNat) else none
  | .ldB _ => (checkRange s.i.toNat 3).map (.boundsViolation .bcd)
  | .ldMemVx x => (checkRange s.i.toNat (x.toNat + 1)).map (.boundsViolation .store)
  | .ldVxMem x => (checkRange s.i.toNat (x.toNat + 1)).map (.boundsViolation .load)
  | _ => none

/-- The effect of an instruction whose check passes. -/
def effectOf (i : Instr) (s : State) : State :=
  match i with
  | .sys _ => s
  | .cls => s.writeFb fbClear
  | .ret =>
    { s with
      sp := ⟨s.sp.val - 1, by omega⟩
      pc := if h : s.sp.val = 0 then s.pc else s.stack[s.sp.val - 1]'(by omega) }
  | .jp nnn => s.writePc (zext12 nnn)
  | .call nnn =>
    { s with
      stack := if h : s.sp.val < 16 then s.stack.set s.sp.val s.pc h else s.stack
      sp := if h : s.sp.val < 16 then ⟨s.sp.val + 1, by omega⟩ else s.sp
      pc := zext12 nnn }
  | .seImm x kk => s.skipIf (s.readV x == kk)
  | .sneImm x kk => s.skipIf (s.readV x != kk)
  | .seReg x y => s.skipIf (s.readV x == s.readV y)
  | .ldImm x kk => s.writeV x kk
  | .addImm x kk => s.writeV x (s.readV x + kk)
  | .ldReg x y => s.writeV x (s.readV y)
  | .orReg x y => s.writeV x (s.readV x ||| s.readV y)
  | .andReg x y => s.writeV x (s.readV x &&& s.readV y)
  | .xorReg x y => s.writeV x (s.readV x ^^^ s.readV y)
  | .addReg x y => flagThenWrite (carryFlag (s.readV x) (s.readV y)) x (fun _ => s.readV x + s.readV y) s
  | .subReg x y =>
    flagThenWrite (greaterFlag (s.readV x) (s.readV y)) x (fun s1 => s1.readV x - s1.readV y) s
  | .shr x => flagThenWrite (lowBitFlag (s.readV x)) x (fun s1 => s1.readV x >>> 1) s
  | .subnReg x y =>
    flagThenWrite (greaterFlag (s.readV y) (s.readV x)) x (fun s1 => s1.readV y - s1.readV x) s
  | .shl x => flagThenWrite (highBitFlag (s.readV x)) x (fun s1 => s1.readV x <<< 1) s
  | .sneReg x y => s.skipIf (s.readV x != s.readV y)
  | .ldI nnn => s.writeI (zext12 nnn)
  | .jpV0 nnn => s.writePc (sum12 (s.readV 0).toNat nnn.toNat)
  | .rnd x kk => drawMasked (Config.randomByte s.draws) x kk s
  | .drw x y n => drawSprite x y n s
  | .skp x => s.skipIf ((s.keys[(s.readV x).toNat]?).getD true == true)
  | .sknp x => s.skipIf ((s.keys[(s.readV x).toNat]?).getD true == false)
  | .ldVxDt x => s.writeV x s.dt
  | .ldVxK x =>
    match lowestKey s.keys with
    | some k => s.writeV x (BitVec.ofNat 8 k.val)
    | none => s.writePc (s.pc - 2)
  | .ldDtVx x => s.writeDt (s.readV x)
  | .ldStVx x => s.writeSt (s.readV x)
  | .addI x => s.writeI (sum12 s.i.toNat (s.readV x).toNat)
  | .ldF x => s.writeI (glyphAddress s.fontBase (s.readV x))
  | .ldB x => s.writeMem (Memory.writeBytes s.mem s.i.toNat (bcdDigits (s.readV x)))
  | .ldMemVx x => s.writeMem (Memory.writeBytes s.mem s.i.toNat (regsUpTo s.v x))
  | .ldVxMem x => s.writeRegs (regsLoaded s.v s.mem s.i.toNat x)

/-- A guarded access in the shape of `exec_eq`. -/
theorem guardRange_eq (acc : Access) (addr n : Nat) (s : State) (body : State → State) :
    guardRange acc addr n s body =
      .next (match (checkRange addr n).map (FaultCause.boundsViolation acc) with
        | some c => s.raise c
        | none => body s) := by
  unfold guardRange
  cases checkRange addr n <;> rfl

/-- A key test in the shape of `exec_eq`. -/
theorem skipOnKey_eq (x : Nibble) (want : Bool) (s : State) :
    skipOnKey x want s =
      .next (match (if 16 ≤ (s.readV x).toNat then
            some (FaultCause.boundsViolation .keypad (s.readV x).toNat) else none) with
        | some c => s.raise c
        | none => s.skipIf ((s.keys[(s.readV x).toNat]?).getD true == want)) := by
  by_cases h : (s.readV x).toNat < 16
  · rw [skipOnKey_ok h, if_neg (by omega)]
    simp [h]
  · rw [skipOnKey_fault (by omega), if_pos (by omega)]

/-- EVERYTHING AN INSTRUCTION CAN DO: it raises the fault of its check, writing nothing else, or has its effect. -/
theorem exec_eq (i : Instr) (s : State) :
    exec i s = .next (match faultOf i s with
      | some c => s.raise c
      | none => effectOf i s) := by
  cases i with
  | sys nnn =>
    simp only [exec, execSys, faultOf, effectOf]
    cases s.sysMode <;> rfl
  | ret =>
    simp only [exec, execRet, faultOf, effectOf]
    by_cases h : s.sp.val = 0
    · simp [popPc_empty h, h]
    · simp [popPc_ok h, h]
  | call nnn =>
    simp only [exec, execCall, faultOf, effectOf]
    by_cases h : s.sp.val < 16
    · have h' : s.sp.val ≠ 16 := by omega
      simp [pushPc_ok _ h, h, h', State.writePc]
    · have h' : s.sp.val = 16 := by omega
      simp [pushPc_full _ h', h']
  | drw x y n => exact guardRange_eq ..
  | skp x => exact skipOnKey_eq ..
  | sknp x => exact skipOnKey_eq ..
  | ldB x =>
    exact guardRange_eq .bcd s.i.toNat 3 s fun s1 =>
      s1.writeMem (Memory.writeBytes s1.mem s1.i.toNat (bcdDigits (s1.readV x)))
  | ldMemVx x =>
    exact guardRange_eq .store s.i.toNat (x.toNat + 1) s fun s1 =>
      s1.writeMem (Memory.writeBytes s1.mem s1.i.toNat (regsUpTo s1.v x))
  | ldVxMem x =>
    exact guardRange_eq .load s.i.toNat (x.toNat + 1) s fun s1 =>
      s1.writeRegs (regsLoaded s1.v s1.mem s1.i.toNat x)
  | ldVxK x =>
    simp only [exec, execLdVxK, faultOf, effectOf]
    cases lowestKey s.keys <;> rfl
  | _ => rfl

/-- An instruction whose check passes has its effect. -/
theorem exec_ok {i : Instr} {s : State} (h : faultOf i s = none) : exec i s = .next (effectOf i s) := by
  rw [exec_eq, h]

/-- An instruction whose check fails raises that fault and writes nothing else. -/
theorem exec_fault {i : Instr} {s : State} {c : FaultCause} (h : faultOf i s = some c) :
    exec i s = .next (s.raise c) := by
  rw [exec_eq, h]

/-- The two ends of an instruction that answers a next state. -/
theorem exec_cases {i : Instr} {s t : State} (h : exec i s = .next t) :
    (faultOf i s = none ∧ t = effectOf i s) ∨ ∃ c, faultOf i s = some c ∧ t = s.raise c := by
  rw [exec_eq] at h
  cases hf : faultOf i s with
  | none => rw [hf] at h; exact .inl ⟨rfl, by injection h with h; exact h.symm⟩
  | some c => rw [hf] at h; exact .inr ⟨c, rfl, by injection h with h; exact h.symm⟩

/-- An effect writes no fault record. -/
theorem effectOf_fault (i : Instr) (s : State) : (effectOf i s).fault = s.fault := by
  cases i <;> simp only [effectOf, skipIf_eq, flagThenWrite, drawMasked, drawSprite, State.writeV_fault,
    State.writeFb_fault, State.writePc_fault, State.writeI_fault, State.writeDt_fault, State.writeSt_fault,
    State.writeMem_fault, State.writeRegs_fault, State.countDraw_fault]
  split <;> rfl

/-- An effect leaves the coming moves and the boot phase. -/
theorem effectOf_moves (i : Instr) (s : State) : (effectOf i s).turns = s.turns ∧ (effectOf i s).boot = s.boot := by
  cases i with
  | ldVxK x => simp only [effectOf]; split <;> simp
  | _ => simp [effectOf, skipIf_eq, flagThenWrite, drawMasked, drawSprite]

/-- No instruction touches the coming moves or the boot phase. -/
theorem exec_moves {i : Instr} {s t : State} (h : exec i s = .next t) : t.turns = s.turns ∧ t.boot = s.boot := by
  rcases exec_cases h with ⟨_, rfl⟩ | ⟨c, _, rfl⟩
  · exact effectOf_moves i s
  · simp

/-- No cycle touches the coming moves or the boot phase; the step around it does, by `State.beginCycle`. -/
theorem cycle_moves {s t : State} (h : cycle s = .next t) : t.turns = s.turns ∧ t.boot = s.boot := by
  obtain ⟨-, ⟨_, rfl⟩ | ⟨_, _, rfl⟩ | ⟨_, i, _, hx⟩⟩ := cycle_cases h
  · simp
  · simp
  · simpa using exec_moves hx

end Sys2Proof.Machine
end

