-- ==== Sys2Proof/Laws/PerInstr.lean ====
section
/-! SUPPORT. One statement per instruction: its encoded word carries the selector of its row (30_encoding.md R75). -/

namespace Sys2Proof.Laws

open Sys2Proof

/-- The selector of an opcode-map row: the high nibble, and the low bits the family tests (30_encoding.md R74). -/
inductive Selector where
  | word (w : Word)
  | high (op : Nat)
  | low4 (op low : Nat)
  | low8 (op low : Nat)
  deriving DecidableEq, Repr

/-- The word has the selector's bits. -/
def Selector.selects : Selector → Word → Prop
  | .word v, w => w = v
  | .high op, w => (opField w).toNat = op
  | .low4 op low, w => (opField w).toNat = op ∧ (nField w).toNat = low
  | .low8 op low, w => (opField w).toNat = op ∧ (kkField w).toNat = low

/-- The selector of each instruction's row of R75. -/
def selectorOf : Instr → Selector
  | .sys _ => .high 0x0
  | .cls => .word 0x00E0
  | .ret => .word 0x00EE
  | .jp _ => .high 0x1
  | .call _ => .high 0x2
  | .seImm _ _ => .high 0x3
  | .sneImm _ _ => .high 0x4
  | .seReg _ _ => .high 0x5
  | .ldImm _ _ => .high 0x6
  | .addImm _ _ => .high 0x7
  | .ldReg _ _ => .low4 0x8 0x0
  | .orReg _ _ => .low4 0x8 0x1
  | .andReg _ _ => .low4 0x8 0x2
  | .xorReg _ _ => .low4 0x8 0x3
  | .addReg _ _ => .low4 0x8 0x4
  | .subReg _ _ => .low4 0x8 0x5
  | .shr _ => .low4 0x8 0x6
  | .subnReg _ _ => .low4 0x8 0x7
  | .shl _ => .low4 0x8 0xE
  | .sneReg _ _ => .high 0x9
  | .ldI _ => .high 0xA
  | .jpV0 _ => .high 0xB
  | .rnd _ _ => .high 0xC
  | .drw _ _ _ => .high 0xD
  | .skp _ => .low8 0xE 0x9E
  | .sknp _ => .low8 0xE 0xA1
  | .ldVxDt _ => .low8 0xF 0x07
  | .ldVxK _ => .low8 0xF 0x0A
  | .ldDtVx _ => .low8 0xF 0x15
  | .ldStVx _ => .low8 0xF 0x18
  | .addI _ => .low8 0xF 0x1E
  | .ldF _ => .low8 0xF 0x29
  | .ldB _ => .low8 0xF 0x33
  | .ldMemVx _ => .low8 0xF 0x55
  | .ldVxMem _ => .low8 0xF 0x65

/-- The encoded word carries the selector of the instruction's row. -/
def EncodesItsRow.Statement (i : Instr) : Prop := (selectorOf i).selects (encode i)

theorem low8_selects {op : Nat} (h : op < 16) (x : Nibble) (kk : Byte) :
    (Selector.low8 op kk.toNat).selects (wordXkk op x kk) :=
  ⟨opField_wordXkk h x kk, by rw [kkField_wordXkk h]⟩

theorem low4_selects {op : Nat} (h : op < 16) (x y n : Nibble) :
    (Selector.low4 op n.toNat).selects (wordXyn op x y n) :=
  ⟨opField_wordXyn h x y n, by rw [nField_wordXyn h]⟩

theorem EncodesItsRow.sys (nnn : Addr12) : EncodesItsRow.Statement (.sys nnn) :=
  opField_wordNnn (by decide) nnn

theorem EncodesItsRow.cls : EncodesItsRow.Statement .cls :=
  rfl

theorem EncodesItsRow.ret : EncodesItsRow.Statement .ret :=
  rfl

theorem EncodesItsRow.jp (nnn : Addr12) : EncodesItsRow.Statement (.jp nnn) :=
  opField_wordNnn (by decide) nnn

theorem EncodesItsRow.call (nnn : Addr12) : EncodesItsRow.Statement (.call nnn) :=
  opField_wordNnn (by decide) nnn

theorem EncodesItsRow.seImm (x : Nibble) (kk : Byte) : EncodesItsRow.Statement (.seImm x kk) :=
  opField_wordXkk (by decide) x kk

theorem EncodesItsRow.sneImm (x : Nibble) (kk : Byte) : EncodesItsRow.Statement (.sneImm x kk) :=
  opField_wordXkk (by decide) x kk

theorem EncodesItsRow.seReg (x : Nibble) (y : Nibble) : EncodesItsRow.Statement (.seReg x y) :=
  opField_wordXyn (by decide) x y 0

theorem EncodesItsRow.ldImm (x : Nibble) (kk : Byte) : EncodesItsRow.Statement (.ldImm x kk) :=
  opField_wordXkk (by decide) x kk

theorem EncodesItsRow.addImm (x : Nibble) (kk : Byte) : EncodesItsRow.Statement (.addImm x kk) :=
  opField_wordXkk (by decide) x kk

theorem EncodesItsRow.ldReg (x : Nibble) (y : Nibble) : EncodesItsRow.Statement (.ldReg x y) :=
  low4_selects (by decide) x y 0x0

theorem EncodesItsRow.orReg (x : Nibble) (y : Nibble) : EncodesItsRow.Statement (.orReg x y) :=
  low4_selects (by decide) x y 0x1

theorem EncodesItsRow.andReg (x : Nibble) (y : Nibble) : EncodesItsRow.Statement (.andReg x y) :=
  low4_selects (by decide) x y 0x2

theorem EncodesItsRow.xorReg (x : Nibble) (y : Nibble) : EncodesItsRow.Statement (.xorReg x y) :=
  low4_selects (by decide) x y 0x3

theorem EncodesItsRow.addReg (x : Nibble) (y : Nibble) : EncodesItsRow.Statement (.addReg x y) :=
  low4_selects (by decide) x y 0x4

theorem EncodesItsRow.subReg (x : Nibble) (y : Nibble) : EncodesItsRow.Statement (.subReg x y) :=
  low4_selects (by decide) x y 0x5

theorem EncodesItsRow.shr (x : Nibble) : EncodesItsRow.Statement (.shr x) :=
  low4_selects (by decide) x 0 0x6

theorem EncodesItsRow.subnReg (x : Nibble) (y : Nibble) : EncodesItsRow.Statement (.subnReg x y) :=
  low4_selects (by decide) x y 0x7

theorem EncodesItsRow.shl (x : Nibble) : EncodesItsRow.Statement (.shl x) :=
  low4_selects (by decide) x 0 0xE

theorem EncodesItsRow.sneReg (x : Nibble) (y : Nibble) : EncodesItsRow.Statement (.sneReg x y) :=
  opField_wordXyn (by decide) x y 0

theorem EncodesItsRow.ldI (nnn : Addr12) : EncodesItsRow.Statement (.ldI nnn) :=
  opField_wordNnn (by decide) nnn

theorem EncodesItsRow.jpV0 (nnn : Addr12) : EncodesItsRow.Statement (.jpV0 nnn) :=
  opField_wordNnn (by decide) nnn

theorem EncodesItsRow.rnd (x : Nibble) (kk : Byte) : EncodesItsRow.Statement (.rnd x kk) :=
  opField_wordXkk (by decide) x kk

theorem EncodesItsRow.drw (x : Nibble) (y : Nibble) (n : Nibble) : EncodesItsRow.Statement (.drw x y n) :=
  opField_wordXyn (by decide) x y n

theorem EncodesItsRow.skp (x : Nibble) : EncodesItsRow.Statement (.skp x) :=
  low8_selects (by decide) x 0x9E

theorem EncodesItsRow.sknp (x : Nibble) : EncodesItsRow.Statement (.sknp x) :=
  low8_selects (by decide) x 0xA1

theorem EncodesItsRow.ldVxDt (x : Nibble) : EncodesItsRow.Statement (.ldVxDt x) :=
  low8_selects (by decide) x 0x07

theorem EncodesItsRow.ldVxK (x : Nibble) : EncodesItsRow.Statement (.ldVxK x) :=
  low8_selects (by decide) x 0x0A

theorem EncodesItsRow.ldDtVx (x : Nibble) : EncodesItsRow.Statement (.ldDtVx x) :=
  low8_selects (by decide) x 0x15

theorem EncodesItsRow.ldStVx (x : Nibble) : EncodesItsRow.Statement (.ldStVx x) :=
  low8_selects (by decide) x 0x18

theorem EncodesItsRow.addI (x : Nibble) : EncodesItsRow.Statement (.addI x) :=
  low8_selects (by decide) x 0x1E

theorem EncodesItsRow.ldF (x : Nibble) : EncodesItsRow.Statement (.ldF x) :=
  low8_selects (by decide) x 0x29

theorem EncodesItsRow.ldB (x : Nibble) : EncodesItsRow.Statement (.ldB x) :=
  low8_selects (by decide) x 0x33

theorem EncodesItsRow.ldMemVx (x : Nibble) : EncodesItsRow.Statement (.ldMemVx x) :=
  low8_selects (by decide) x 0x55

theorem EncodesItsRow.ldVxMem (x : Nibble) : EncodesItsRow.Statement (.ldVxMem x) :=
  low8_selects (by decide) x 0x65

end Sys2Proof.Laws
end

