-- ==== Sys2Proof/Tests/Slice0.lean ====
section
/-! SUPPORT. Tests of one step each, with the expected values of spec/95_test_vectors.md (the row is named before each
theorem), decode tests of words written from spec/30_encoding.md, and for every obligation with hypotheses a state and
operands that meet them. -/

namespace Sys2Proof.Tests

open Sys2Proof Sys2Proof.Machine

/-! ### Helpers -/

/-- The reset machine with the word `w` at `pc`, about to fetch it. -/
def at_ (pc w : Word) : State :=
  { State.reset with pc := pc, mem := Memory.writeBytes [] pc.toNat (bytesOfWord w) }

/-- Some registers set, every other one 0. -/
def regs : List (Nibble × Byte) → Regs
  | [] => Vector.replicate 16 0
  | (x, b) :: rest => regSet (regs rest) x b

/-- Some keys pressed. -/
def pressed (ks : List Nat) : Keys := Vector.ofFn fun j : Fin 16 => decide (j.val ∈ ks)

/-- The state after one step, if the step has one. -/
def after (s : State) : Option State :=
  match step s with
  | .next t => some t
  | _ => none

/-- One look at the state after one step. -/
def look {α : Type} (s : State) (f : State → α) : Option α := (after s).map f

/-- The machine at 0x200 about to run `w`, with registers. -/
def run (w : Word) (rs : List (Nibble × Byte)) : State := { at_ 0x200 w with v := regs rs }

/-- The machine about to run `w` at 0x200, with registers, I and extra bytes at 0x300. -/
def runMem (w i : Word) (rs : List (Nibble × Byte)) (bytes : List Byte) : State :=
  { run w rs with i := i, mem := Memory.writeBytes (at_ 0x200 w).mem 0x300 bytes }

/-- A fault record. -/
def faulted (c : FaultCause) (pc0 : Word) : Option FaultRecord := some { cause := c, pc0 := pc0 }

/-- A machine whose next turn is an external event. -/
def told (e : Event) : State := { at_ 0x200 0x1200 with turns := [.external e] }

/-! ### Well-formedness (30_encoding.md R75 row 1, R76) -/

theorem test_wf_sys_not_cls : ¬ WellFormed (.sys 0x0E0) := by decide
theorem test_wf_sys_not_ret : ¬ WellFormed (.sys 0x0EE) := by decide
theorem test_wf_sys : WellFormed (.sys 0x1E0) := by decide

/-! ### Decoding: the word of each row of 30_encoding.md R75, written out from its pattern -/

theorem test_decode_sys : decode 0x0123 = .ok (.sys 0x123) := by decide
theorem test_decode_cls : decode 0x00E0 = .ok .cls := by decide
theorem test_decode_ret : decode 0x00EE = .ok .ret := by decide
theorem test_decode_jp : decode 0x1ABC = .ok (.jp 0xABC) := by decide
theorem test_decode_call : decode 0x2ABC = .ok (.call 0xABC) := by decide
theorem test_decode_seImm : decode 0x3A7B = .ok (.seImm 0xA 0x7B) := by decide
theorem test_decode_sneImm : decode 0x4A7B = .ok (.sneImm 0xA 0x7B) := by decide
theorem test_decode_seReg : decode 0x5AB0 = .ok (.seReg 0xA 0xB) := by decide
theorem test_decode_ldImm : decode 0x6A7B = .ok (.ldImm 0xA 0x7B) := by decide
theorem test_decode_addImm : decode 0x7A7B = .ok (.addImm 0xA 0x7B) := by decide
theorem test_decode_ldReg : decode 0x8AB0 = .ok (.ldReg 0xA 0xB) := by decide
theorem test_decode_orReg : decode 0x8AB1 = .ok (.orReg 0xA 0xB) := by decide
theorem test_decode_andReg : decode 0x8AB2 = .ok (.andReg 0xA 0xB) := by decide
theorem test_decode_xorReg : decode 0x8AB3 = .ok (.xorReg 0xA 0xB) := by decide
theorem test_decode_addReg : decode 0x8AB4 = .ok (.addReg 0xA 0xB) := by decide
theorem test_decode_subReg : decode 0x8AB5 = .ok (.subReg 0xA 0xB) := by decide
theorem test_decode_shr : decode 0x8AB6 = .ok (.shr 0xA) := by decide
theorem test_decode_subnReg : decode 0x8AB7 = .ok (.subnReg 0xA 0xB) := by decide
theorem test_decode_shl : decode 0x8ABE = .ok (.shl 0xA) := by decide
theorem test_decode_sneReg : decode 0x9AB0 = .ok (.sneReg 0xA 0xB) := by decide
theorem test_decode_ldI : decode 0xAABC = .ok (.ldI 0xABC) := by decide
theorem test_decode_jpV0 : decode 0xBABC = .ok (.jpV0 0xABC) := by decide
theorem test_decode_rnd : decode 0xCA7B = .ok (.rnd 0xA 0x7B) := by decide
theorem test_decode_drw : decode 0xDAB5 = .ok (.drw 0xA 0xB 5) := by decide
theorem test_decode_skp : decode 0xEA9E = .ok (.skp 0xA) := by decide
theorem test_decode_sknp : decode 0xEAA1 = .ok (.sknp 0xA) := by decide
theorem test_decode_ldVxDt : decode 0xFA07 = .ok (.ldVxDt 0xA) := by decide
theorem test_decode_ldVxK : decode 0xFA0A = .ok (.ldVxK 0xA) := by decide
theorem test_decode_ldDtVx : decode 0xFA15 = .ok (.ldDtVx 0xA) := by decide
theorem test_decode_ldStVx : decode 0xFA18 = .ok (.ldStVx 0xA) := by decide
theorem test_decode_addI : decode 0xFA1E = .ok (.addI 0xA) := by decide
theorem test_decode_ldF : decode 0xFA29 = .ok (.ldF 0xA) := by decide
theorem test_decode_ldB : decode 0xFA33 = .ok (.ldB 0xA) := by decide
theorem test_decode_ldMemVx : decode 0xFA55 = .ok (.ldMemVx 0xA) := by decide
theorem test_decode_ldVxMem : decode 0xFA65 = .ok (.ldVxMem 0xA) := by decide

/-- R76, D6: near misses of CLS and RET are SYS. -/
theorem test_decode_near_cls :
    decode 0x00E1 = .ok (.sys 0x0E1) ∧ decode 0x01E0 = .ok (.sys 0x1E0) ∧ decode 0x0000 = .ok (.sys 0) := by decide

/-- R77: the low nibble of the 5 and 9 families is ignored (DEC12, DEC13). -/
theorem test_decode_ignored :
    decode 0x5121 = .ok (.seReg 1 2) ∧ decode 0x912F = .ok (.sneReg 1 2) := by decide

/-- R78 to R80: unknown words of the 8, E and F families (DEC5 to DEC8). -/
theorem test_decode_unknown :
    decode 0x8008 = .error (.unknown8 8) ∧ decode 0x800F = .error (.unknown8 0xF) ∧
    decode 0xE000 = .error (.unknownE 0) ∧ decode 0xE19F = .error (.unknownE 0x9F) ∧
    decode 0xF000 = .error (.unknownF 0) ∧ decode 0xF0FF = .error (.unknownF 0xFF) := by decide

/-- 20_memory.md R53: the first byte of a word is its high byte; two bytes are one instruction (R83). -/
theorem test_decode_bytes :
    decodeBytes [0x1A, 0xBC, 0x00] = .ok (.jp 0xABC, [0x00]) ∧ decodeBytes [0x1A] = .error .truncated := by decide

/-- R84: SE V1, V2; SHR V1 and DRW V0, V1, 2 assemble with their ignored fields as 0. -/
theorem test_encode :
    encode (.seReg 1 2) = 0x5120 ∧ encode (.shr 1) = 0x8106 ∧ encode (.drw 0 1 2) = 0xD012 ∧
    encode (.ldB 0xA) = 0xFA33 := by decide

/-- A table word is a whole instruction, and the step from reset runs it: JP 0xABC. -/
theorem test_tableWord :
    decodeTableWord 16 0x1ABC = some (.jp 0xABC) ∧ decodeTableWord 16 0x8008 = none ∧
    look (State.reset.withFetchWord 16 0x1ABC) (fun t => t.pc) = some 0xABC := by decide

/-! ### Fetch -/

/-- DEC3, its first cycle: the last word of memory is fetched and PC becomes 0x1000. -/
theorem test_fetch_last : look (at_ 0xFFE 0x6001) (fun t => (t.readV 0, t.pc, t.ir)) = some (1, 0x1000, 0x6001) := by
  decide

/-- DEC4: with PC = 0xFFF the fetch faults, and PC and IR stay. -/
theorem test_fetch_out :
    look (at_ 0xFFF 0x6001) (fun t => (t.fault, t.pc, t.ir)) =
      some (faulted (.boundsViolation .fetch 0x1000) 0xFFF, 0xFFF, 0) := by decide

/-- DEC2: an odd PC is no fault. -/
theorem test_fetch_odd : look (at_ 0x201 0x6A05) (fun t => (t.readV 0xA, t.pc)) = some (5, 0x203) := by decide

/-- DEC5. -/
theorem test_unknown :
    look (at_ 0x200 0x8008) (fun t => (t.fault, t.pc, t.ir)) =
      some (faulted (.unknownOpcode 0x8008) 0x200, 0x202, 0x8008) := by decide

/-- FLT2: a faulted core has no step. -/
theorem test_faulted_core :
    step { State.reset with fault := faulted (.unknownOpcode 0x8008) 0x200 } =
      .fault (.coreStopped { cause := .unknownOpcode 0x8008, pc0 := 0x200 }) := rfl

/-- R171: the codes of the four kinds, and 0 for no fault. -/
theorem test_fault_codes :
    State.reset.faultCode = 0 ∧ { State.reset with fault := faulted (.boundsViolation .bcd 4096) 0 }.faultCode = 1 ∧
    { State.reset with fault := faulted (.stackOverflow 16) 0 }.faultCode = 2 ∧
    { State.reset with fault := faulted (.stackUnderflow 0) 0 }.faultCode = 3 ∧
    { State.reset with fault := faulted (.unknownOpcode 0) 0 }.faultCode = 4 := by decide

/-! ### Control flow -/

/-- DEC9. -/
theorem test_sys_fault :
    look (at_ 0x200 0x0123) (fun t => (t.fault, t.pc)) = some (faulted (.unknownOpcode 0x0123) 0x200, 0x202) := by
  decide

/-- DEC10. -/
theorem test_sys_nop :
    look { at_ 0x200 0x0123 with sysMode := .nop } (fun t => (t.fault, t.pc)) = some (none, 0x202) := by decide

/-- CF8. -/
theorem test_ret :
    look { at_ 0x200 0x00EE with sp := 3, stack := State.reset.stack.set 2 0x456 }
      (fun t => (t.sp, t.pc, t.stack[2])) = some (2, 0x456, 0x456) := by decide

/-- CF7. -/
theorem test_ret_empty :
    look (at_ 0x200 0x00EE) (fun t => (t.fault, t.sp, t.pc)) = some (faulted (.stackUnderflow 0) 0x200, 0, 0x202) := by
  decide

/-- CF1. -/
theorem test_jp : look (at_ 0x200 0x1ABC) (fun t => t.pc) = some 0xABC := by decide

/-- CF5. -/
theorem test_call :
    look (at_ 0x204 0x2210) (fun t => (t.stack[0], t.sp, t.pc)) = some (0x206, 1, 0x210) := by decide

/-- CF6. -/
theorem test_call_full :
    look { at_ 0x200 0x2ABC with sp := 16 } (fun t => (t.fault, t.sp, t.pc)) =
      some (faulted (.stackOverflow 16) 0x200, 16, 0x202) := by decide

/-- CF11, CF12. -/
theorem test_seImm :
    look { at_ 0x300 0x3A7B with v := regs [(0xA, 0x7B)] } (fun t => t.pc) = some 0x304 ∧
    look { at_ 0x300 0x3A7B with v := regs [(0xA, 0x7C)] } (fun t => t.pc) = some 0x302 := by decide

/-- CF13, CF14. -/
theorem test_sneImm :
    look { at_ 0x300 0x4A00 with v := regs [(0xA, 1)] } (fun t => t.pc) = some 0x304 ∧
    look { at_ 0x300 0x4A00 with v := regs [] } (fun t => t.pc) = some 0x302 := by decide

/-- DEC12; with V1 = 0x33 and V2 = 0x34, R107 skips nothing. -/
theorem test_seReg :
    look (run 0x5121 [(1, 0x33), (2, 0x33)]) (fun t => t.pc) = some 0x204 ∧
    look (run 0x5120 [(1, 0x33), (2, 0x34)]) (fun t => t.pc) = some 0x202 := by decide

/-- DEC13, CF16. -/
theorem test_sneReg :
    look (run 0x912F [(1, 1), (2, 2)]) (fun t => t.pc) = some 0x204 ∧
    look (run 0x9550 [(5, 7)]) (fun t => t.pc) = some 0x202 := by decide

/-- CF18: a skip past the end of memory is no fault in its own cycle. -/
theorem test_skip_to_end : look (at_ 0xFFC 0x3000) (fun t => (t.pc, t.fault)) = some (0x1000, none) := by decide

/-- CF20, CF22. -/
theorem test_jpV0 :
    look (run 0xBFFF [(0, 2)]) (fun t => t.pc) = some 0x001 ∧
    look (run 0xB300 [(0, 0), (3, 0x50)]) (fun t => t.pc) = some 0x300 := by decide

/-! ### ALU -/

/-- ALU2. -/
theorem test_ldImm : look (run 0x6FAA []) (fun t => t.readV 0xF) = some 0xAA := by decide

/-- ALU3, ALU5. -/
theorem test_addImm :
    look (run 0x7001 [(0, 0xFF), (15, 0x55)]) (fun t => (t.readV 0, t.readV 15)) = some (0, 0x55) ∧
    look (run 0x7F02 [(15, 0xFF)]) (fun t => t.readV 15) = some 1 := by decide

/-- ALU6. -/
theorem test_ldReg : look (run 0x8120 [(2, 0x44)]) (fun t => t.readV 1) = some 0x44 := by decide

/-- ALU7. -/
theorem test_orReg :
    look (run 0x8011 [(0, 0xF0), (1, 0x0F), (15, 0x77)]) (fun t => (t.readV 0, t.readV 15)) = some (0xFF, 0x77) := by
  decide

/-- ALU8. -/
theorem test_andReg :
    look (run 0x8012 [(0, 0xF0), (1, 0x3C), (15, 0x77)]) (fun t => (t.readV 0, t.readV 15)) = some (0x30, 0x77) := by
  decide

/-- ALU39. -/
theorem test_xorReg :
    look (run 0x8013 [(0, 0xFF), (1, 0x0F), (15, 0x77)]) (fun t => (t.readV 0, t.readV 15)) = some (0xF0, 0x77) := by
  decide

/-- ALU9, ALU10. -/
theorem test_addReg :
    look (run 0x8014 [(0, 0xFF), (1, 1)]) (fun t => (t.readV 0, t.readV 15)) = some (0, 1) ∧
    look (run 0x8014 [(0, 1), (1, 1), (15, 9)]) (fun t => (t.readV 0, t.readV 15)) = some (2, 0) := by decide

/-- ALU14, ALU15: an operand is VF. -/
theorem test_addReg_vf :
    look (run 0x8F14 [(15, 0xFF), (1, 2)]) (fun t => t.readV 15) = some 1 ∧
    look (run 0x80F4 [(0, 0x10), (15, 0xF0)]) (fun t => (t.readV 0, t.readV 15)) = some (0, 1) := by decide

/-- ALU16, ALU17, ALU18. -/
theorem test_subReg :
    look (run 0x8015 [(0, 5), (1, 3)]) (fun t => (t.readV 0, t.readV 15)) = some (2, 1) ∧
    look (run 0x8015 [(0, 3), (1, 5), (15, 9)]) (fun t => (t.readV 0, t.readV 15)) = some (254, 0) ∧
    look (run 0x8015 [(0, 7), (1, 7), (15, 9)]) (fun t => (t.readV 0, t.readV 15)) = some (0, 0) := by decide

/-- ALU19, ALU20, ALU21: an operand is VF. -/
theorem test_subReg_vf :
    look (run 0x8F15 [(15, 5), (1, 3)]) (fun t => t.readV 15) = some 0xFE ∧
    look (run 0x80F5 [(0, 5), (15, 3)]) (fun t => (t.readV 0, t.readV 15)) = some (4, 1) ∧
    look (run 0x8FF5 [(15, 9)]) (fun t => t.readV 15) = some 0 := by decide

/-- DEC14, ALU23. -/
theorem test_shr :
    look (run 0x8126 [(1, 3), (2, 0xFF)]) (fun t => (t.readV 1, t.readV 15, t.readV 2)) = some (1, 1, 0xFF) ∧
    look (run 0x8206 [(2, 0x80), (15, 9)]) (fun t => (t.readV 2, t.readV 15)) = some (0x40, 0) := by decide

/-- ALU24. -/
theorem test_shr_vf : look (run 0x8F06 [(15, 0xFF)]) (fun t => t.readV 15) = some 0 := by decide

/-- ALU25, ALU26. -/
theorem test_subnReg :
    look (run 0x8017 [(0, 3), (1, 5)]) (fun t => (t.readV 0, t.readV 15)) = some (2, 1) ∧
    look (run 0x8017 [(0, 5), (1, 3), (15, 9)]) (fun t => (t.readV 0, t.readV 15)) = some (0xFE, 0) := by decide

/-- ALU27, ALU28, ALU29: an operand is VF. -/
theorem test_subnReg_vf :
    look (run 0x8F17 [(15, 3), (1, 5)]) (fun t => t.readV 15) = some 4 ∧
    look (run 0x80F7 [(0, 3), (15, 5)]) (fun t => (t.readV 0, t.readV 15)) = some (0xFE, 1) ∧
    look (run 0x8FF7 [(15, 9)]) (fun t => t.readV 15) = some 0 := by decide

/-- ALU30, ALU31. -/
theorem test_shl :
    look (run 0x820E [(2, 0x81)]) (fun t => (t.readV 2, t.readV 15)) = some (2, 1) ∧
    look (run 0x820E [(2, 0x40), (15, 9)]) (fun t => (t.readV 2, t.readV 15)) = some (0x80, 0) := by decide

/-- ALU32, ALU33. -/
theorem test_shl_vf :
    look (run 0x8F0E [(15, 0x80)]) (fun t => t.readV 15) = some 2 ∧
    look (run 0x8F0E [(15, 0x7F)]) (fun t => t.readV 15) = some 0 := by decide

/-- ALU36, ALU37, ALU38, with the draw as the argument they fix. -/
theorem test_rnd :
    (drawMasked 0xAB 0 0x0F State.reset).readV 0 = 0x0B ∧ (drawMasked 0xAB 0 0x00 State.reset).readV 0 = 0 ∧
    (drawMasked 0xAB 0 0xFF State.reset).readV 0 = 0xAB := by decide

/-- R36: every RND draws once. -/
theorem test_rnd_draws : look (run 0xC00F []) (fun t => (t.draws, t.pc)) = some (1, 0x202) := by decide

/-! ### Index register and memory -/

/-- MEM1. -/
theorem test_ldI : look (at_ 0x200 0xAFFF) (fun t => t.i) = some 0xFFF := by decide

/-- MEM2, MEM3. -/
theorem test_addI :
    look { run 0xF11E [(1, 0x20), (15, 0x55)] with i := 0x300 } (fun t => (t.i, t.readV 15)) = some (0x320, 0x55) ∧
    look { run 0xF11E [(1, 1)] with i := 0xFFF } (fun t => (t.i, t.readV 15)) = some (0, 0) := by decide

/-- MEM4, MEM5, MEM6. -/
theorem test_ldF :
    look (run 0xF429 [(4, 0x0A)]) (fun t => t.i) = some 0x032 ∧
    look (run 0xF429 [(4, 0xFF)]) (fun t => t.i) = some 0x4FB ∧
    look { run 0xF429 [(4, 0x0F)] with fontBase := 0x050 } (fun t => t.i) = some 0x09B := by decide

/-- MEM9, MEM7. -/
theorem test_ldB :
    look (runMem 0xF033 0x300 [(0, 0xFF)] [])
      (fun t => (Memory.read t.mem 0x300, Memory.read t.mem 0x301, Memory.read t.mem 0x302)) = some (2, 5, 5) ∧
    look (runMem 0xFA33 0x300 [(0xA, 0x7B)] [9, 9, 9, 9])
      (fun t => (Memory.read t.mem 0x302, Memory.read t.mem 0x303, t.i)) = some (3, 9, 0x300) := by decide

/-- MEM11. -/
theorem test_ldB_bounds :
    look (runMem 0xF033 0xFFE [(0, 9)] []) (fun t => (t.fault, Memory.read t.mem 0xFFE)) =
      some (faulted (.boundsViolation .bcd 0x1000) 0x200, 0) := by decide

/-- MEM12, MEM13. -/
theorem test_ldMemVx :
    look (runMem 0xF155 0x400 [(0, 1), (1, 2)] [])
      (fun t => (Memory.read t.mem 0x400, Memory.read t.mem 0x401, t.i)) = some (1, 2, 0x400) ∧
    look (runMem 0xF055 0x400 [(0, 9), (1, 7)] [])
      (fun t => (Memory.read t.mem 0x400, Memory.read t.mem 0x401)) = some (9, 0) := by decide

/-- MEM15. -/
theorem test_ldMemVx_bounds :
    look (runMem 0xFF55 0xFF1 [(0, 9)] []) (fun t => (t.fault, Memory.read t.mem 0xFF1)) =
      some (faulted (.boundsViolation .store 0x1000) 0x200, 0) := by decide

/-- MEM16. -/
theorem test_ldVxMem :
    look (runMem 0xF265 0x300 [(3, 0x77)] [1, 2, 3])
      (fun t => (t.readV 0, t.readV 1, t.readV 2, t.readV 3, t.i)) = some (1, 2, 3, 0x77, 0x300) := by decide

/-- MEM19. -/
theorem test_ldVxMem_bounds :
    look (runMem 0xF165 0xFFF [(0, 0x11), (1, 0x22)] []) (fun t => (t.fault, t.readV 0, t.readV 1)) =
      some (faulted (.boundsViolation .load 0x1000) 0x200, 0x11, 0x22) := by decide

/-! ### Display -/

/-- DRW1. -/
theorem test_cls :
    look { run 0x00E0 [(15, 7)] with fb := fbToggle fbClear 63 31 } (fun t => (fbGet t.fb 63 31, t.readV 15)) =
      some (false, 7) := by decide

/-- DRW7, DRW8 (collision), DRW5 (y wraps), DRW13 (the origin is read before VF is cleared). -/
theorem test_drw :
    look { runMem 0xD011 0x300 [] [0xC0] with fb := fbToggle fbClear 1 0 }
      (fun t => (fbGet t.fb 0 0, fbGet t.fb 1 0, t.readV 15)) = some (true, false, 1) ∧
    look { runMem 0xD011 0x300 [] [0x80] with fb := fbToggle fbClear 1 0 }
      (fun t => (fbGet t.fb 0 0, fbGet t.fb 1 0, t.readV 15)) = some (true, true, 0) ∧
    look (runMem 0xD012 0x300 [(1, 31)] [0x80, 0x80])
      (fun t => (fbGet t.fb 0 31, fbGet t.fb 0 0, t.readV 15)) = some (true, true, 0) ∧
    look (runMem 0xDF11 0x300 [(15, 10)] [0x80])
      (fun t => (fbGet t.fb 10 0, fbGet t.fb 0 0, t.readV 15)) = some (true, false, 0) := by decide

/-- DRW11, DRW9: the range check, and n = 0. -/
theorem test_drw_bounds :
    look (runMem 0xD013 0xFFE [(15, 7)] []) (fun t => (t.fault, t.readV 15)) =
      some (faulted (.boundsViolation .sprite 0x1000) 0x200, 7) ∧
    look (runMem 0xD010 0xFFF [(15, 1)] []) (fun t => (t.fault, t.readV 15)) = some (none, 0) := by decide

/-! ### Timers and keypad -/

/-- TK1. -/
theorem test_ldVxDt : look { run 0xF307 [] with dt := 0x3C } (fun t => (t.readV 3, t.dt)) = some (0x3C, 0x3C) := by
  decide

/-- TK2. -/
theorem test_ldDtVx : look (run 0xF015 [(0, 5)]) (fun t => (t.dt, t.st)) = some (5, 0) := by decide

/-- TK3. -/
theorem test_ldStVx : look (run 0xF118 [(1, 0x10)]) (fun t => (t.st, t.dt)) = some (0x10, 0) := by decide

/-- TK4, TK5. -/
theorem test_skp :
    look { at_ 0x220 0xE59E with v := regs [(5, 7)], keys := pressed [7] } (fun t => t.pc) = some 0x224 ∧
    look { at_ 0x220 0xE59E with v := regs [(5, 7)] } (fun t => t.pc) = some 0x222 := by decide

/-- TK8. -/
theorem test_skp_bounds :
    look (run 0xE59E [(5, 0x10)]) (fun t => t.fault) = some (faulted (.boundsViolation .keypad 0x10) 0x200) := by decide

/-- TK6, TK7. -/
theorem test_sknp :
    look { at_ 0x220 0xE5A1 with v := regs [(5, 7)] } (fun t => t.pc) = some 0x224 ∧
    look { at_ 0x220 0xE5A1 with v := regs [(5, 7)], keys := pressed [7] } (fun t => t.pc) = some 0x222 := by decide

/-- TK9. -/
theorem test_sknp_bounds :
    look (run 0xE5A1 [(5, 0xFF)]) (fun t => t.fault) = some (faulted (.boundsViolation .keypad 0xFF) 0x200) := by decide

/-- TK10: waiting. -/
theorem test_ldVxK_waits :
    look { at_ 0x20A 0xF20A with v := regs [(2, 0x99)] } (fun t => (t.pc, t.readV 2)) = some (0x20A, 0x99) := by decide

/-- TK11: the lowest key. -/
theorem test_ldVxK :
    look { at_ 0x20A 0xF20A with keys := pressed [3, 9] } (fun t => (t.pc, t.readV 2)) = some (0x20C, 3) := by decide

/-! ### External events -/

/-- TK14, TK15. -/
theorem test_tick :
    look { told .tick with dt := 5, st := 3 } (fun t => (t.dt, t.st, t.pc)) = some (4, 2, 0x200) ∧
    look { told .tick with dt := 1, st := 0 } (fun t => (t.dt, t.st)) = some (0, 0) := by decide

/-- TK17. -/
theorem test_keys : look (told (.keys (pressed [7]))) (fun t => t.keys) = some (pressed [7]) := by decide

/-- R41: the display and sound drivers read and change nothing, and the turn is spent. -/
theorem test_reads :
    look (told .display) (fun t => (t.pc, t.turns)) = some (0x200, []) ∧
    look (told .sound) (fun t => (t.pc, t.turns)) = some (0x200, []) := by decide

/-- R186: cell (5, 1) is entry 69 of the display. -/
theorem test_display : { State.reset with fb := fbToggle fbClear 5 1 }.display[69] = true := by
  rw [State.display, Vector.getElem_ofFn]
  decide

/-- R203 on P5's image, 22 00. -/
theorem test_load :
    look (told (.load [0x22, 0x00])) (fun t => (t.nextWord, t.pc)) = some (0x2200, 0x200) := by decide

/-- FLT3: reset clears the fault record; PC, SP and the font are as R37 says. -/
theorem test_reset :
    look { told (.reset launchOfReset) with fault := faulted (.unknownOpcode 0x8008) 0x200, sp := 2, fontBase := 0x50 }
      (fun t => (t.fault, t.pc, t.sp, Memory.read t.mem 0x50, Memory.read t.mem 0x9F)) =
      some (none, 0x200, 0, 0xF0, 0x80) := by decide +kernel

/-- R205: a load after the first cycle, and a second load, are no moves. -/
theorem test_load_once :
    step { told (.load [0x22, 0x00]) with boot := .running } = .fault .loadAfterBoot ∧
    step { told (.load [0x22, 0x00]) with boot := .loaded } = .fault .loadAfterBoot := ⟨rfl, rfl⟩

/-- R205: reset, load, run is the boot order; a boot that runs before its load is not, with the cycle listed or not, and no
load follows the first cycle. -/
theorem test_boot_order :
    bootOrder .running
      [.external (.reset launchOfReset), .external (.load [0x12, 0x00]), .cycle, .external .tick] = true ∧
    bootOrder .running [.external (.reset launchOfReset)] = false ∧
    bootOrder .running [.external (.reset launchOfReset), .cycle] = false ∧
    bootOrder .running [.external (.load [0x12, 0x00])] = false := by decide

/-! ### Witnesses: states and operands that meet the hypotheses of the obligations, with boundary values of each clause -/

/-- A machine with a listed cycle turn, about to run JP 0x300. -/
def listed : State := { at_ 0x200 0x1300 with turns := [.cycle, .external .tick] }

/-- A machine whose core has faulted. -/
def stopped : State := { at_ 0x200 0x1300 with fault := faulted (.stackUnderflow 0) 0x1FE }

theorem witness_ResetEntersAtBaseWithFont :
    (told (.reset launchOfReset)).turns = .external (.reset launchOfReset) :: [] := rfl

theorem witness_ResetSetsEveryElement :
    { stopped with turns := [.external (.reset launchOfReset)], fontBase := 0x1B0 }.turns =
      .external (.reset launchOfReset) :: [] := rfl

/-- The largest image that fits and the smallest that does not (FLT4, FLT5), and a load after the first cycle. -/
theorem witness_LoadCopiesOrRejects :
    ((told (.load (List.replicate 3584 1))).turns = .external (.load (List.replicate 3584 1)) :: [] ∧
      (told (.load (List.replicate 3584 1))).boot = .constructed ∧
      Config.programBase + (List.replicate 3584 (1 : Byte)).length ≤ 4096) ∧
    ((told (.load (List.replicate 3585 1))).turns = .external (.load (List.replicate 3585 1)) :: [] ∧
      (told (.load (List.replicate 3585 1))).boot = .constructed ∧
      4096 < Config.programBase + (List.replicate 3585 (1 : Byte)).length) ∧
    { told (.load [1]) with boot := .running }.turns = .external (.load [1]) :: [] ∧
      { told (.load [1]) with boot := .running }.boot ≠ .constructed :=
  ⟨⟨rfl, rfl, by rw [List.length_replicate]; decide⟩, ⟨rfl, rfl, by rw [List.length_replicate]; decide⟩, rfl, by decide⟩

theorem witness_TickCountsBothTimersDown : (told .tick).turns = .external .tick :: [] := rfl

theorem witness_KeysAndSoundEvents :
    (told (.keys (pressed [0, 15]))).turns = .external (.keys (pressed [0, 15])) :: [] ∧
    (told .sound).turns = .external .sound :: [] := ⟨rfl, rfl⟩

/-- The turn; and cells at the corners, (0, 0) and (63, 31). -/
theorem witness_DisplayReadsRowMajor :
    (told .display).turns = .external .display :: [] ∧ (0 < 64 ∧ 0 < 32) ∧ 63 < 64 ∧ 31 < 32 := by decide

theorem witness_OnlyResetClearsFault :
    ({ stopped with turns := [.external .tick] }.turns = .external .tick :: [] ∧
      (∀ image, Event.tick ≠ .load image) ∧ ∃ t, step { stopped with turns := [.external .tick] } = .next t) ∧
    { stopped with turns := [.external (.reset launchOfReset)] }.turns = .external (.reset launchOfReset) :: [] ∧
      ∃ t, step { stopped with turns := [.external (.reset launchOfReset)] } = .next t :=
  ⟨⟨rfl, by simp, _, rfl⟩, rfl, _, rfl⟩

/-- An unlisted cycle and a listed one, at the last PC that can be fetched. -/
theorem witness_StepRunsDecodedInstruction :
    ((at_ 0xFFE 0x1300).running ∧ (at_ 0xFFE 0x1300).cycleNext [] ∧ (at_ 0xFFE 0x1300).fetchable ∧
      decode (Memory.readWord (at_ 0xFFE 0x1300).mem (at_ 0xFFE 0x1300).pc.toNat) = .ok (.jp 0x300)) ∧
    listed.running ∧ listed.cycleNext [.external .tick] ∧ listed.fetchable ∧
      decode (Memory.readWord listed.mem listed.pc.toNat) = .ok (.jp 0x300) := by decide

theorem witness_FetchIsBigEndian :
    ((at_ 0xFFE 0x6001).running ∧ (at_ 0xFFE 0x6001).cycleNext [] ∧ (at_ 0xFFE 0x6001).fetchable) ∧
    listed.running ∧ listed.cycleNext [.external .tick] ∧ listed.fetchable := by decide

theorem witness_FetchOutOfRangeFaults :
    ((at_ 0xFFF 0).running ∧ (at_ 0xFFF 0).cycleNext [] ∧ 4095 ≤ (at_ 0xFFF 0).pc.toNat) ∧
    { listed with pc := 0xFFFF }.running ∧ { listed with pc := 0xFFFF }.cycleNext [.external .tick] ∧
      4095 ≤ { listed with pc := 0xFFFF }.pc.toNat := by decide

/-- An unknown word, unlisted and listed, and SYS under SYS_MODE = fault. -/
theorem witness_UnknownWordsFault :
    ((at_ 0x200 0xF0FF).running ∧ (at_ 0x200 0xF0FF).cycleNext [] ∧ (at_ 0x200 0xF0FF).fetchable ∧
      decode (at_ 0x200 0xF0FF).nextWord = .error (.unknownF 0xFF)) ∧
    { at_ 0x200 0xF0FF with turns := [.cycle] }.cycleNext [] ∧
    (at_ 0x200 0x0123).running ∧ (at_ 0x200 0x0123).cycleNext [] ∧ (at_ 0x200 0x0123).fetchable ∧
      decode (at_ 0x200 0x0123).nextWord = .ok (.sys 0x123) ∧ (at_ 0x200 0x0123).sysMode = .fault := by decide

theorem witness_FaultedCoreHasNoCycle :
    (stopped.fault = some { cause := .stackUnderflow 0, pc0 := 0x1FE } ∧ stopped.cycleNext []) ∧
    { stopped with turns := [.cycle] }.cycleNext [] := by decide

/-- A fetch fault, and an execute fault of a listed cycle. -/
theorem witness_FaultsLeaveOnlyTheFetch :
    ((at_ 0xFFF 0).running ∧ (at_ 0xFFF 0).cycleNext [] ∧
      ∃ t, step (at_ 0xFFF 0) = .next t ∧
        t.fault = some { cause := .boundsViolation .fetch 4096, pc0 := 0xFFF }) ∧
    { at_ 0x200 0x00EE with turns := [.cycle] }.running ∧ { at_ 0x200 0x00EE with turns := [.cycle] }.cycleNext [] ∧
      ∃ t, step { at_ 0x200 0x00EE with turns := [.cycle] } = .next t ∧
        t.fault = some { cause := .stackUnderflow 0, pc0 := 0x200 } :=
  ⟨⟨rfl, by decide, _, rfl, rfl⟩, rfl, by decide, _, rfl, rfl⟩

theorem witness_ChecksComeBeforeWrites :
    State.reset.running ∧ ∃ t, exec .ret State.reset = .next t ∧ ¬ t.running :=
  ⟨rfl, _, rfl, by decide⟩

theorem witness_EveryCycleEndsOkOrFaulted : (at_ 0x200 0x1300).cycleNext [] ∧ stopped.cycleNext [] := by decide

theorem witness_DecodeOfEncodeIsSame : WellFormed (.sys 0xFFF) ∧ WellFormed .cls ∧ WellFormed (.drw 15 15 15) := by decide

/-- A word of each clause, with ignored bits set. -/
theorem witness_EncodeOfDecodeKeepsOperandBits :
    decode 0x512F = .ok (.seReg 1 2) ∧ decode 0x912F = .ok (.sneReg 1 2) ∧ decode 0x81F6 = .ok (.shr 1) ∧
    decode 0x81FE = .ok (.shl 1) ∧ decode 0xD012 = .ok (.drw 0 1 2) := by decide

theorem witness_SysFollowsItsMode :
    { State.reset with sysMode := .nop }.sysMode = .nop ∧ State.reset.sysMode = .fault := by decide

/-- SP = 1, SP = 16 and SP = 0. -/
theorem witness_RetPopsOrUnderflows :
    { State.reset with sp := 1 }.sp.val = (0 : Fin 16).val + 1 ∧
    { State.reset with sp := 16 }.sp.val = (15 : Fin 16).val + 1 ∧ State.reset.sp.val = 0 := by decide

/-- SP = 0, SP = 15 and SP = 16. -/
theorem witness_CallPushesOrOverflows :
    State.reset.sp.val = (0 : Fin 16).val ∧ { State.reset with sp := 15 }.sp.val = (15 : Fin 16).val ∧
    { State.reset with sp := 16 }.sp.val = 16 := by decide

/-- A subroutine at depth 16, and one at depth 1 that has made a call of its own and returned from it. -/
theorem witness_CallRetRoundTrip :
    ({ State.reset with sp := 15 }.sp.val < 16 ∧
      ∃ t, exec (.call 0x300) { State.reset with sp := 15 } = .next t ∧
        { t with pc := 0x300, i := 7 }.sp = t.sp ∧ { t with pc := 0x300, i := 7 }.stack[15] = t.stack[15]) ∧
    ∃ t, exec (.call 0x300) State.reset = .next t ∧ { t with stack := t.stack.set 1 0x302 }.sp = t.sp ∧
      { t with stack := t.stack.set 1 0x302 }.stack[0] = t.stack[0] :=
  ⟨⟨by decide, _, rfl, rfl, rfl⟩, _, rfl, rfl, rfl⟩

theorem witness_AluFlagAndResultApartFromVf : (14 : Nibble) ≠ 15 ∧ (0 : Nibble) ≠ 15 := by decide

/-- I = 0xFFD and I = 0xFFE (MEM10, MEM11). -/
theorem witness_BcdStoresThreeDigits :
    { State.reset with i := 0xFFD }.i.toNat + 2 < 4096 ∧ 4096 ≤ { State.reset with i := 0xFFE }.i.toNat + 2 := by decide

/-- I = 0xFF0 with x = 15, and I = 0xFFF with x = 0 (MEM14, MEM18); a register in the range. -/
theorem witness_StoreRegistersToMemory :
    { State.reset with i := 0xFF0 }.i.toNat + (15 : Nibble).toNat < 4096 ∧
    { State.reset with i := 0xFFF }.i.toNat + (0 : Nibble).toNat < 4096 ∧
    (15 : Nibble).toNat ≤ (15 : Nibble).toNat := by decide

theorem witness_LoadRegistersFromMemory :
    { State.reset with i := 0xFF0 }.i.toNat + (15 : Nibble).toNat < 4096 ∧
    { State.reset with i := 0xFFF }.i.toNat + (0 : Nibble).toNat < 4096 := by decide

theorem witness_StoreThenLoadRestoresRegisters :
    { State.reset with i := 0xFF0 }.i.toNat + (15 : Nibble).toNat < 4096 ∧
    ∃ t, exec (.ldMemVx 15) { State.reset with i := 0xFF0 } = .next t ∧
      { t with pc := 0x300, v := regs [(3, 9)] }.i = t.i ∧ { t with pc := 0x300, v := regs [(3, 9)] }.mem = t.mem :=
  ⟨by decide, _, rfl, rfl, rfl⟩

/-- Each clause at its boundary, and I above 4096. -/
theorem witness_BoundsViolationsRecordLowestAddress :
    ((2 : Nibble) ≠ 0 ∧ 4096 < { State.reset with i := 0xFFF }.i.toNat + (2 : Nibble).toNat) ∧
    ((1 : Nibble) ≠ 0 ∧ 4096 < { State.reset with i := 0xFFFF }.i.toNat + (1 : Nibble).toNat) ∧
    4096 ≤ { State.reset with i := 0xFF1 }.i.toNat + (15 : Nibble).toNat ∧
    4096 ≤ { State.reset with i := 0x1000 }.i.toNat + (0 : Nibble).toNat ∧
    16 ≤ ({ State.reset with v := regs [(5, 16)] }.readV 5).toNat ∧
    16 ≤ ({ State.reset with v := regs [(5, 255)] }.readV 5).toNat := by decide

/-- n = 0 with I out of range, and the last sprite in range. -/
theorem witness_DrwInvertsCoveredCells :
    ((0 : Nibble) = 0 ∨ { State.reset with i := 0xFFFF }.i.toNat + (0 : Nibble).toNat ≤ 4096) ∧
    ((15 : Nibble) = 0 ∨ { State.reset with i := 0xFF1 }.i.toNat + (15 : Nibble).toNat ≤ 4096) := by decide

theorem witness_DrwCollisionFlag :
    ((0 : Nibble) = 0 ∨ { State.reset with i := 0xFFFF }.i.toNat + (0 : Nibble).toNat ≤ 4096) ∧
    ((1 : Nibble) = 0 ∨ { State.reset with i := 0xFFF }.i.toNat + (1 : Nibble).toNat ≤ 4096) := by decide

/-- Both sides of the flag: a set sprite bit over an on cell and over an off cell. -/
theorem witness_DrwCollisionFlag_covers :
    SpriteCovers [(0x300, 0x80)] 0x300 1 64 32 0 0 :=
  ⟨0, by decide, 0, by decide, by decide, by decide, by decide⟩

theorem witness_DrwTwiceRestoresScreen :
    (14 : Nibble) ≠ 15 ∧ (0 : Nibble) ≠ 15 ∧
    ((15 : Nibble) = 0 ∨ { State.reset with i := 0xFF1 }.i.toNat + (15 : Nibble).toNat ≤ 4096) := by decide

/-- Key 0 and key 15. -/
theorem witness_KeySkipsTestTheirKey :
    (State.reset.readV 5).toNat = (0 : Fin 16).val ∧
    ({ State.reset with v := regs [(5, 15)] }.readV 5).toNat = (15 : Fin 16).val := by decide

/-- The lowest key 0, the lowest key 15, and no key. -/
theorem witness_KeyWaitTakesLowestOrRepeats :
    ((pressed [0, 9])[(0 : Fin 16)] = true ∧ ∀ j : Fin 16, j < 0 → (pressed [0, 9])[j] = false) ∧
    ((pressed [15])[(15 : Fin 16)] = true ∧ ∀ j : Fin 16, j < 15 → (pressed [15])[j] = false) ∧
    ∀ j : Fin 16, State.reset.keys[j] = false := by decide

theorem witness_KeyWaitHoldsThePc :
    (at_ 0x20A 0xF20A).running ∧ (at_ 0x20A 0xF20A).cycleNext [] ∧ (at_ 0x20A 0xF20A).awaitsKey :=
  ⟨rfl, by decide, by decide, ⟨2, by decide⟩, by decide⟩

theorem reset_inv : State.reset.Inv :=
  ⟨rfl, by decide, by decide, by decide⟩

/-- The reset state, and a state with a call pending and a reset to come. -/
theorem witness_StepKeepsInvariant :
    (State.reset.Inv ∧ ∃ t, step State.reset = .next t) ∧
    { listed with sp := 1, turns := [.external (.reset launchOfReset)] }.Inv ∧
      ∃ t, step { listed with sp := 1, turns := [.external (.reset launchOfReset)] } = .next t :=
  ⟨⟨reset_inv, _, rfl⟩, ⟨by decide, by decide, by decide, by decide⟩, _, rfl⟩

theorem witness_ResetMeetsInvariant :
    Memory.wf { launchOfReset with initM := [(0xFFF, 1)] }.initM = true ∧ ∀ t ∈ listed.turns, t.lawful = true := by
  decide

theorem witness_IndexStaysTwelveBits :
    { State.reset with i := 0xFFF }.i.toNat ≤ 0xFFF ∧ ∃ t, exec (.addI 0) { State.reset with i := 0xFFF } = .next t :=
  ⟨by decide, _, rfl⟩

theorem witness_ElementsWrittenOnlyByTheirInstructions :
    (∃ t, exec (.ldStVx 0) State.reset = .next t) ∧ ∃ t, exec (.call 0x300) State.reset = .next t :=
  ⟨⟨_, rfl⟩, _, rfl⟩

/-- A flag instruction and an instruction that names VF. -/
theorem witness_VfWrittenOnlyByFlagInstructions :
    (∃ t, exec (.subReg 0 1) (run 0x8015 [(0, 5), (1, 3)]) = .next t ∧
      t.readV 15 ≠ (run 0x8015 [(0, 5), (1, 3)]).readV 15) ∧
    ∃ t, exec (.ldImm 15 1) State.reset = .next t ∧ t.readV 15 ≠ State.reset.readV 15 :=
  ⟨⟨_, rfl, by decide⟩, _, rfl, by decide⟩

theorem witness_SoundTimerIsNeverRead : ∃ t, exec (.ldStVx 3) State.reset = .next t := ⟨_, rfl⟩

/-- One pending call, with every free slot changed. -/
theorem witness_FreeStackSlotsAreNeverRead :
    (∀ j : Fin 16, j.val < { State.reset with sp := 1 }.sp.val →
      ((Vector.replicate 16 (7 : Word)).set 0 0)[j] = { State.reset with sp := 1 }.stack[j]) ∧
    ∃ t, exec .ret { State.reset with sp := 1 } = .next t :=
  ⟨by decide, _, rfl⟩

theorem witness_OldInstructionIsNeverRead : (at_ 0xFFE 0x1300).cycleNext [] ∧ (at_ 0xFFE 0x1300).fetchable := by decide

/-- MEM20's state after its fetch, and the last place such a store fits. -/
theorem witness_StoreIsSeenByNextFetch :
    ({ at_ 0x202 0 with i := 0x202 }.i = { at_ 0x202 0 with i := 0x202 }.pc ∧ 1 ≤ (1 : Nibble).toNat ∧
      { at_ 0x202 0 with i := 0x202 }.pc.toNat + (1 : Nibble).toNat < 4096 ∧
      { at_ 0x202 0 with i := 0x202 }.cycleNext [] ∧ { at_ 0x202 0 with i := 0x202 }.running) ∧
    { at_ 0xFFE 0 with i := 0xFFE }.i = { at_ 0xFFE 0 with i := 0xFFE }.pc ∧
      { at_ 0xFFE 0 with i := 0xFFE }.pc.toNat + (1 : Nibble).toNat < 4096 := by decide

/-- CF2's stop point. -/
theorem witness_StopPointIsStable :
    (at_ 0x20A 0x120A).running ∧ (at_ 0x20A 0x120A).cycleNext [] ∧ (at_ 0x20A 0x120A).atStopPoint :=
  ⟨rfl, by decide, by decide, by decide⟩

/-- A boot about to load, an ordered boot that runs, and the first cycle. -/
theorem witness_BootOrderIsKept :
    bootOrder (told (.load [0x12, 0x00])).boot (told (.load [0x12, 0x00])).turns = true ∧
    (∃ t, step (told (.load [0x12, 0x00])) = .next t) ∧
    { listed with boot := .running }.boot = .running ∧
    bootOrder { listed with boot := .running }.boot listed.turns = true ∧
    (∃ t, step { listed with boot := .running } = .next t) ∧ listed.cycleNext [.external .tick] :=
  ⟨by decide, ⟨_, rfl⟩, rfl, by decide, ⟨_, rfl⟩, by decide⟩

end Sys2Proof.Tests
end

section
/-! What an instruction may write (10_state.md R39), said once for all instructions, and the whole-machine rules of
10_state.md that follow from it. -/

namespace Sys2Proof.Machine

open Sys2Proof

/-! ### Everything an instruction can write -/

/-- `Writes i s t`: `t` is `s` after one of the groups of writes that R39 allows `i`, with what is known of the values. -/
inductive Writes (i : Instr) (s : State) : State → Prop where
  | nothing : Writes i s s
  | fault (c : FaultCause) (hi : mayFault i = true) : Writes i s (s.raise c)
  | regs (v : Regs) (hv : ∀ j : Nibble, regGet v j = s.readV j ∨ mayWriteV i j = true) : Writes i s (s.writeRegs v)
  | pc (w : Word) (hi : mayWritePc i = true) (hw : w = s.pc + 2 ∨ w = s.pc - 2 ∨ w.toNat ≤ 4095) :
    Writes i s (s.writePc w)
  | index (w : Word) (hi : (∃ nnn, i = .ldI nnn) ∨ ∃ x, i = .addI x ∨ i = .ldF x) (hw : w.toNat ≤ 4095) :
    Writes i s (s.writeI w)
  | memory (m : Memory) (hi : ∃ x, i = .ldB x ∨ i = .ldMemVx x) (hm : Memory.wf s.mem = true → Memory.wf m = true) :
    Writes i s (s.writeMem m)
  | delay (b : Byte) (hi : ∃ x, i = .ldDtVx x) : Writes i s (s.writeDt b)
  | sound (b : Byte) (hi : ∃ x, i = .ldStVx x) : Writes i s (s.writeSt b)
  | clear (f : Framebuffer) (hi : i = .cls) : Writes i s (s.writeFb f)
  | draw (b : Byte) (f : Framebuffer) (hi : ∃ x y n, i = .drw x y n) : Writes i s ((s.writeV vf b).writeFb f)
  | random (b : Byte) (x : Nibble) (kk : Byte) (hi : i = .rnd x kk) : Writes i s (s.countDraw.writeV x b)
  | pop (hs : s.sp.val ≠ 0) (hi : i = .ret) :
    Writes i s { s with sp := ⟨s.sp.val - 1, by omega⟩, pc := s.stack[s.sp.val - 1]'(by omega) }
  | push (hs : s.sp.val < 16) (nnn : Addr12) (hi : i = .call nnn) :
    Writes i s
      { s with stack := s.stack.set s.sp.val s.pc hs, sp := ⟨s.sp.val + 1, by omega⟩, pc := zext12 nnn }

namespace Writes

variable {i : Instr} {s : State}

/-- A write of one register the instruction may write. -/
theorem writeV {x : Nibble} (b : Byte) (hx : mayWriteV i x = true) : Writes i s (s.writeV x b) := by
  refine .regs (regSet s.v x b) fun j => ?_
  rw [regGet_regSet]
  split
  · next h => exact .inr (h ▸ hx)
  · exact .inl rfl

/-- A write of VF and then of another register, when the instruction may write both. -/
theorem flagThenWrite {x : Nibble} (flag : Byte) (value : State → Byte) (hf : mayWriteV i vf = true)
    (hx : mayWriteV i x = true) : Writes i s (flagThenWrite flag x value s) := by
  refine .regs (regSet (regSet s.v vf flag) x (value (s.writeV vf flag))) fun j => ?_
  rw [regGet_regSet, regGet_regSet]
  split
  · next h => exact .inr (h ▸ hx)
  · split
    · next h => exact .inr (h ▸ hf)
    · exact .inl rfl

/-- A skip, taken or not. -/
theorem skipIf (c : Bool) (hi : mayWritePc i = true) : Writes i s (s.skipIf c) := by
  cases c with
  | false => exact .nothing
  | true => exact .pc (s.pc + 2) hi (.inl rfl)

end Writes

/-- A register file loaded from memory differs in the registers 0 to x alone. -/
theorem regGet_regsLoaded (v : Regs) (m : Memory) (a : Nat) (x j : Nibble) :
    regGet (regsLoaded v m a x) j = if j.toNat ≤ x.toNat then Memory.read m (a + j.toNat) else regGet v j := by
  simp [regGet, regsLoaded]

/-- Only the instructions of 60_exceptions.md R178 have a check that can fail. -/
theorem mayFault_of_faultOf {i : Instr} {s : State} {c : FaultCause} (h : faultOf i s = some c) :
    mayFault i = true := by
  cases i with
  | sys _ | ret | call _ | drw _ _ _ | skp _ | sknp _ | ldB _ | ldMemVx _ | ldVxMem _ => rfl
  | _ => cases h

/-- RET's check passes with a call pending. -/
theorem ret_passes {s : State} (h : faultOf .ret s = none) : s.sp.val ≠ 0 := by
  simpa [faultOf] using h

/-- CALL's check passes below depth 16. -/
theorem call_passes {s : State} {nnn : Addr12} (h : faultOf (.call nnn) s = none) : s.sp.val < 16 := by
  have h16 : s.sp.val ≠ 16 := by simpa [faultOf] using h
  omega

/-- An instruction whose check passes writes what it may write. -/
theorem effectOf_writes {i : Instr} {s : State} (h : faultOf i s = none) : Writes i s (effectOf i s) := by
  cases i with
  | sys nnn => exact .nothing
  | cls => exact .clear fbClear rfl
  | ret =>
    have hs := ret_passes h
    simpa [effectOf, hs] using Writes.pop hs rfl
  | call nnn =>
    have hs := call_passes h
    simpa [effectOf, hs] using Writes.push hs nnn rfl
  | jp nnn => exact .pc _ rfl (.inr (.inr (zext12_le nnn)))
  | jpV0 nnn => exact .pc _ rfl (.inr (.inr (by rw [sum12_toNat]; omega)))
  | seImm x kk | sneImm x kk | seReg x y | sneReg x y | skp x | sknp x => exact .skipIf _ rfl
  | ldImm x kk | addImm x kk | ldReg x y | orReg x y | andReg x y | xorReg x y | ldVxDt x =>
    exact .writeV _ (by simp [mayWriteV])
  | addReg x y | subReg x y | subnReg x y | shr x | shl x =>
    simp only [effectOf]
    apply Writes.flagThenWrite <;> simp [mayWriteV]
  | ldVxK x =>
    simp only [effectOf]
    cases lowestKey s.keys with
    | some k => exact .writeV _ (by simp [mayWriteV])
    | none => exact .pc _ rfl (.inr (.inl rfl))
  | ldVxMem x =>
    refine .regs _ fun j => ?_
    rw [regGet_regsLoaded]
    by_cases hj : j.toNat ≤ x.toNat
    · exact .inr (by simpa [mayWriteV] using hj)
    · exact .inl (if_neg hj)
  | ldI nnn => exact .index _ (.inl ⟨nnn, rfl⟩) (zext12_le nnn)
  | addI x => exact .index _ (.inr ⟨x, .inl rfl⟩) (by rw [sum12_toNat]; omega)
  | ldF x =>
    have hg := (glyphAddress_toNat s.fontBase (s.readV x)).2
    exact .index _ (.inr ⟨x, .inr rfl⟩) (by omega)
  | ldB x =>
    have hr : s.i.toNat + 3 ≤ 4096 := by simpa [faultOf, checkRange_eq_none] using h
    exact .memory _ ⟨x, .inl rfl⟩ fun hm => Memory.wf_writeBytes hm hr
  | ldMemVx x =>
    have hr : s.i.toNat + (x.toNat + 1) ≤ 4096 := by simpa [faultOf, checkRange_eq_none] using h
    exact .memory _ ⟨x, .inr rfl⟩ fun hm => Memory.wf_writeBytes hm (by rwa [regsUpTo_length])
  | ldDtVx x => exact .delay _ ⟨x, rfl⟩
  | ldStVx x => exact .sound _ ⟨x, rfl⟩
  | drw x y n => exact .draw _ _ ⟨x, y, n, rfl⟩
  | rnd x kk => exact .random _ x kk rfl

/-- EVERYTHING AN INSTRUCTION CAN WRITE, the fault record among it. -/
theorem exec_writes {i : Instr} {s t : State} (h : exec i s = .next t) : Writes i s t := by
  rcases exec_cases h with ⟨hf, rfl⟩ | ⟨c, hf, rfl⟩
  · exact effectOf_writes hf
  · exact .fault c (mayFault_of_faultOf hf)

/-! ### The invariant -/

/-- PC is at most 4098 after an instruction, when PC is `pc0 + 2` of a fetch in range before it. -/
theorem Writes.pc_le {i : Instr} {s t : State} (h : Writes i s t) (hlo : 2 ≤ s.pc.toNat) (hhi : s.pc.toNat ≤ 4096)
    (hr : ∀ j : Fin 16, j.val < s.sp.val → s.stack[j].toNat ≤ 4096) : t.pc.toNat ≤ 4098 := by
  have hsame : s.pc.toNat ≤ 4098 := by omega
  cases h with
  | pc w hi hw =>
    rw [State.writePc_pc]
    rcases hw with rfl | rfl | hw
    · bv_omega
    · bv_omega
    · omega
  | pop hs hi =>
    have hj : s.sp.val - 1 < 16 := by omega
    have hle : s.stack[s.sp.val - 1].toNat ≤ 4096 := hr ⟨s.sp.val - 1, hj⟩ (by show s.sp.val - 1 < s.sp.val; omega)
    show s.stack[s.sp.val - 1].toNat ≤ 4098
    omega
  | push hs nnn hi =>
    have := zext12_le nnn
    show (zext12 nnn).toNat ≤ 4098
    omega
  | _ => exact hsame

/-- The return addresses on the stack stay at most 4096 when PC, the one CALL pushes, is. -/
theorem Writes.returns_le {i : Instr} {s t : State} (h : Writes i s t) (hpc : s.pc.toNat ≤ 4096)
    (hr : ∀ j : Fin 16, j.val < s.sp.val → s.stack[j].toNat ≤ 4096) :
    ∀ j : Fin 16, j.val < t.sp.val → t.stack[j].toNat ≤ 4096 := by
  cases h with
  | pop hs hi =>
    intro j hj
    exact hr j (Nat.lt_of_lt_of_le hj (Nat.sub_le ..))
  | push hs nnn hi =>
    intro j hj
    show ((s.stack.set s.sp.val s.pc hs)[j.val]).toNat ≤ 4096
    rw [Vector.getElem_set]
    split
    · exact hpc
    · next hne => exact hr j (by change j.val < s.sp.val + 1 at hj; omega)
  | _ => exact hr

/-- Memory stays in canonical form. -/
theorem Writes.memory_wf {i : Instr} {s t : State} (h : Writes i s t) (hm : Memory.wf s.mem = true) :
    Memory.wf t.mem = true := by
  cases h with
  | memory m hi hwf => exact hwf hm
  | _ => exact hm

/-- An instruction keeps the invariant when PC is `pc0 + 2` of a fetch in range. -/
theorem exec_keeps_inv {i : Instr} {s t : State} (hs : s.Inv) (hlo : 2 ≤ s.pc.toNat) (hhi : s.pc.toNat ≤ 4096)
    (h : exec i s = .next t) : t.Inv where
  memory := (exec_writes h).memory_wf hs.memory
  pc_le := (exec_writes h).pc_le hlo hhi hs.returns_le
  returns_le := (exec_writes h).returns_le hhi hs.returns_le
  turns_lawful := by rw [(exec_moves h).1]; exact hs.turns_lawful

/-- A latched fault keeps the invariant. -/
theorem latchFault_keeps_inv {s : State} (hs : s.Inv) (w : Word) (c : FaultCause) : (s.latchFault w c).Inv :=
  ⟨hs.memory, hs.pc_le, hs.returns_le, hs.turns_lawful⟩

/-- The PC a fetch in range leaves. -/
theorem fetched_pc_toNat {s : State} (h : s.fetchable) : s.fetched.pc.toNat = s.pc.toNat + 2 := by
  have : s.pc.toNat ≤ 4094 := h
  rw [State.fetched_pc]
  bv_omega

/-- A fetch in range keeps the invariant. -/
theorem fetched_keeps_inv {s : State} (hs : s.Inv) (h : s.fetchable) : s.fetched.Inv where
  memory := hs.memory
  pc_le := by have := fetched_pc_toNat h; omega
  returns_le := hs.returns_le
  turns_lawful := hs.turns_lawful

/-- A cycle keeps the invariant. -/
theorem cycle_keeps_inv {s t : State} (hs : s.Inv) (h : cycle s = .next t) : t.Inv := by
  obtain ⟨-, ⟨_, rfl⟩ | ⟨hf, _, rfl⟩ | ⟨hf, i, _, hx⟩⟩ := cycle_cases h
  · exact latchFault_keeps_inv hs ..
  · exact latchFault_keeps_inv (fetched_keeps_inv hs hf) ..
  · have hpc := fetched_pc_toNat hf
    have hle : s.pc.toNat ≤ 4094 := hf
    exact exec_keeps_inv (fetched_keeps_inv hs hf) (by omega) (by omega) hx

/-- A reset event gives the invariant, whatever the machine held but its coming turns. -/
theorem construct_inv {s : State} {l : Launch} (hm : Memory.wf l.initM = true) (ht : ∀ t ∈ s.turns, t.lawful = true) :
    (s.construct l).Inv where
  memory := by
    refine Memory.wf_writeBytes hm ?_
    have := s.fontBase.isLt
    simp only [Vector.length_toList, Config.memSize]
    omega
  pc_le := by show (BitVec.ofNat 16 Config.programBase).toNat ≤ 4098; decide
  returns_le := fun j hj => absurd hj (Nat.not_lt_zero j.val)
  turns_lawful := ht

/-- An image that is copied lies within memory, so a load keeps the invariant. -/
theorem loadImage_keeps_inv {s : State} (hs : s.Inv) (image : List Byte) : (s.loadImage image).Inv := by
  unfold State.loadImage
  split
  · next hfit => exact ⟨Memory.wf_writeBytes hs.memory hfit, hs.pc_le, hs.returns_le, hs.turns_lawful⟩
  · exact hs

/-- A lawful event keeps the invariant. -/
theorem applyEvent_keeps_inv {s : State} {e : Event} (hs : s.Inv) (he : (Turn.external e).lawful = true) :
    (applyEvent e s).Inv := by
  cases e with
  | reset l => exact construct_inv he hs.turns_lawful
  | load image => exact loadImage_keeps_inv hs image
  | tick | keys k => exact ⟨hs.memory, hs.pc_le, hs.returns_le, hs.turns_lawful⟩
  | display | sound => exact hs

/-- Settles O50: the move is a cycle, which keeps the invariant by `cycle_keeps_inv`, or a lawful event. -/
theorem stepKeepsInvariant : Obligations.StepKeepsInvariant := by
  intro s t hs h
  obtain ⟨ts, hts, hc⟩ | ⟨e, ts, hts, -, rfl⟩ := step_cases h
  · have hlaw : ∀ u ∈ ts, u.lawful = true := by
      rcases hts with hts | ⟨-, rfl⟩
      · exact fun u hu => hs.turns_lawful u (by rw [hts]; exact .tail _ hu)
      · simp
    exact cycle_keeps_inv (s := s.beginCycle ts) ⟨hs.memory, hs.pc_le, hs.returns_le, hlaw⟩ hc
  · have hlaw : ∀ u ∈ Turn.external e :: ts, u.lawful = true := by rw [← hts]; exact hs.turns_lawful
    exact applyEvent_keeps_inv (s := s.writeTurns ts)
      ⟨hs.memory, hs.pc_le, hs.returns_le, fun u hu => hlaw u (.tail _ hu)⟩ (hlaw _ (.head _))

/-- Settles O51, by `construct_inv`. -/
theorem resetMeetsInvariant : Obligations.ResetMeetsInvariant :=
  ⟨⟨reset_memory_wf, by decide, by decide, by decide⟩, fun _ _ hm ht => construct_inv hm ht⟩

/-! ### Which instructions write which element -/

/-- Settles O52: the only values written to I have 12 bits. -/
theorem indexStaysTwelveBits : Obligations.IndexStaysTwelveBits := by
  intro i s t hs h
  cases exec_writes h with
  | index w hi hw => exact hw
  | _ => exact hs

/-- A register after any group of writes is as before, or the instruction may write it. -/
theorem Writes.readV {i : Instr} {s t : State} (h : Writes i s t) (j : Nibble) :
    t.readV j = s.readV j ∨ mayWriteV i j = true := by
  cases h with
  | regs v hv => exact hv j
  | draw b f hi =>
    obtain ⟨x, y, n, rfl⟩ := hi
    rw [State.writeFb_readV, State.readV_writeV]
    split
    · next hj => exact .inr (by simp [mayWriteV, hj])
    · exact .inl rfl
  | random b x kk hi =>
    subst hi
    rw [State.readV_writeV]
    split
    · next hj => exact .inr (by simp [mayWriteV, hj])
    · exact .inl rfl
  | _ => exact .inl rfl

/-- Settles O53, from `exec_writes`: each group of writes leaves every element it does not name. -/
theorem elementsWrittenOnlyByTheirInstructions : Obligations.ElementsWrittenOnlyByTheirInstructions := by
  intro i s t h
  have hw := exec_writes h
  refine ⟨hw.readV, ?_⟩
  cases hw with
  | nothing => simp
  | fault c hi => simp [hi]
  | regs v hv => simp
  | pc w hi => simp [hi]
  | index w hi => simp [hi]
  | memory m hi => simp [hi]
  | delay b hi => simp [hi]
  | sound b hi => simp [hi]
  | clear f hi => simp [hi]
  | draw b f hi => simp [hi]
  | random b x kk hi => simp [hi]
  | pop hs hi => simp [hi, mayWritePc]
  | push hs nnn hi => simp [hi, mayWritePc]

/-- The instructions that may write VF: the flag instructions, and those that name VF as their destination. -/
theorem mayWriteV_vf {i : Instr} (h : mayWriteV i 15 = true) :
    (∃ x y, i = .addReg x y ∨ i = .subReg x y ∨ i = .subnReg x y ∨ ∃ n, i = .drw x y n) ∨
    (∃ x, i = .shr x ∨ i = .shl x) ∨
    (∃ y, i = .ldReg 15 y ∨ i = .orReg 15 y ∨ i = .andReg 15 y ∨ i = .xorReg 15 y) ∨
    (∃ kk, i = .ldImm 15 kk ∨ i = .addImm 15 kk ∨ i = .rnd 15 kk) ∨
    i = .ldVxDt 15 ∨ i = .ldVxK 15 ∨ i = .ldVxMem 15 := by
  cases i with
  | ldVxMem x =>
    have hx : 15 ≤ x.toNat := by simpa [mayWriteV] using h
    have h15 : x = 15 := by bv_omega
    simp [h15]
  | addReg x y | subReg x y | subnReg x y | drw x y n | shr x | shl x => simp
  | ldReg x y | orReg x y | andReg x y | xorReg x y | ldImm x kk | addImm x kk | rnd x kk | ldVxDt x | ldVxK x =>
    have h15 : 15 = x := by simpa [mayWriteV] using h
    simp [← h15]
  | _ => cases h

/-- Settles O54, from the V column of R39. -/
theorem vfWrittenOnlyByFlagInstructions : Obligations.VfWrittenOnlyByFlagInstructions :=
  fun _ _ _ h hne => mayWriteV_vf (((exec_writes h).readV 15).resolve_left hne)

/-! ### What no instruction reads -/

/-- A skip leaves ST. -/
theorem skipIf_writeSt (s : State) (b : Byte) (c : Bool) : (s.writeSt b).skipIf c = (s.skipIf c).writeSt b := by
  cases c <;> rfl

/-- No check reads ST. -/
theorem faultOf_writeSt (i : Instr) (s : State) (b : Byte) : faultOf i (s.writeSt b) = faultOf i s := by
  cases i <;> rfl

/-- No effect reads ST, and only LD ST overwrites it. -/
theorem effectOf_writeSt (i : Instr) (s : State) (b : Byte) :
    effectOf i (s.writeSt b) = (effectOf i s).writeSt b ∨
    effectOf i (s.writeSt b) = effectOf i s ∧ ∃ x, i = .ldStVx x := by
  cases i with
  | ldStVx x => exact .inr ⟨rfl, x, rfl⟩
  | seImm x kk | sneImm x kk | seReg x y | sneReg x y | skp x | sknp x => exact .inl (skipIf_writeSt ..)
  | ldVxK x =>
    simp only [effectOf, State.writeSt_keys]
    cases lowestKey s.keys <;> exact .inl rfl
  | _ => exact .inl rfl

/-- Settles O55: an instruction's check and its effect are the same whatever ST holds. -/
theorem soundTimerIsNeverRead : Obligations.SoundTimerIsNeverRead := by
  intro i s t b h
  change ∃ u, exec i (s.writeSt b) = .next u ∧ _
  rcases exec_cases h with ⟨hf, rfl⟩ | ⟨c, hf, rfl⟩
  · refine ⟨_, exec_ok ((faultOf_writeSt i s b).trans hf), ?_⟩
    rcases effectOf_writeSt i s b with he | ⟨he, hx⟩
    · rw [he]; exact ⟨rfl, .inl rfl⟩
    · rw [he]; exact ⟨rfl, .inr ⟨rfl, hx⟩⟩
  · exact ⟨_, exec_fault ((faultOf_writeSt i s b).trans hf), rfl, .inl rfl⟩

/-- `u` is `t` but for stack slots at or above SP (10_state.md R25). -/
def SameButFreeSlots (t u : State) : Prop :=
  u = { t with stack := u.stack } ∧ ∀ j : Fin 16, j.val < t.sp.val → u.stack[j] = t.stack[j]

/-- A skip leaves the live slots. -/
theorem SameButFreeSlots.skipIf {s : State} {k : Stack} (hk : SameButFreeSlots s { s with stack := k }) (c : Bool) :
    SameButFreeSlots (s.skipIf c) ({ s with stack := k }.skipIf c) := by
  cases c <;> exact ⟨rfl, hk.2⟩

/-- No check reads the stack. -/
theorem faultOf_stack (i : Instr) (s : State) (k : Stack) : faultOf i { s with stack := k } = faultOf i s := by
  cases i <;> rfl

/-- RET reads the slot below SP alone, CALL writes the slot it makes live, and no other effect touches the stack. -/
theorem effectOf_sameButFreeSlots {i : Instr} {s : State} {k : Stack} (hf : faultOf i s = none)
    (hk : SameButFreeSlots s { s with stack := k }) :
    SameButFreeSlots (effectOf i s) (effectOf i { s with stack := k }) := by
  have hlive : ∀ j : Fin 16, j.val < s.sp.val → k[j] = s.stack[j] := hk.2
  cases i with
  | ret =>
    have hs := ret_passes hf
    have hj : s.sp.val - 1 < 16 := by omega
    have htop : k[s.sp.val - 1] = s.stack[s.sp.val - 1] :=
      hlive ⟨s.sp.val - 1, hj⟩ (by show s.sp.val - 1 < s.sp.val; omega)
    refine ⟨by simp [effectOf, htop], fun j hlt => hlive j ?_⟩
    exact Nat.lt_of_lt_of_le hlt (Nat.sub_le ..)
  | call nnn =>
    have hs := call_passes hf
    refine ⟨rfl, fun j hlt => ?_⟩
    simp only [effectOf, hs, dif_pos] at hlt ⊢
    simp only [Fin.getElem_fin, Vector.getElem_set]
    split
    · rfl
    · next hne => exact hlive j (by omega)
  | seImm x kk | sneImm x kk | seReg x y | sneReg x y | skp x | sknp x => exact hk.skipIf _
  | ldVxK x =>
    simp only [effectOf]
    cases lowestKey s.keys <;> exact ⟨rfl, hlive⟩
  | ldVxMem x => exact ⟨rfl, by simpa [effectOf] using hlive⟩
  | _ => exact ⟨rfl, hlive⟩

/-- Settles O56: an instruction's check does not read the stack, and its effect keeps two states the same but for free
slots. -/
theorem freeStackSlotsAreNeverRead : Obligations.FreeStackSlotsAreNeverRead := by
  intro i s t k hk h
  rcases exec_cases h with ⟨hf, rfl⟩ | ⟨c, hf, rfl⟩
  · exact ⟨_, exec_ok ((faultOf_stack i s k).trans hf), effectOf_sameButFreeSlots hf ⟨rfl, hk⟩⟩
  · exact ⟨_, exec_fault ((faultOf_stack i s k).trans hf), rfl, hk⟩

/-- A cycle whose fetch is in range overwrites IR before it reads it. -/
theorem cycle_writeIr {s : State} (hf : s.fetchable) (w : Word) : cycle (s.writeIr w) = cycle s := by
  cases hr : s.fault with
  | some r => rw [cycle_faulted hr, cycle_faulted (s := s.writeIr w) hr]
  | none => rw [cycle_fetched hr hf, cycle_fetched (s := s.writeIr w) hr hf]; rfl

/-- Settles O57, by `cycle_writeIr`. -/
theorem oldInstructionIsNeverRead : Obligations.OldInstructionIsNeverRead := by
  intro s ts w hts hf
  rw [step_cycleNext hts, step_cycleNext (s := { s with ir := w }) hts]
  exact cycle_writeIr (s := s.beginCycle ts) hf w

/-! ### The key wait -/

/-- LD Vx, K in the state its fetch left, with no key pressed, leaves that fetch's IR and the old PC. -/
theorem exec_ldVxK_fetched {s : State} (x : Nibble) (hk : ∀ j : Fin 16, s.keys[j] = false) :
    exec (.ldVxK x) s.fetched = .next (s.writeIr s.nextWord) := by
  have hpc : s.pc + 2 - 2 = s.pc := by bv_omega
  simp only [exec, execLdVxK, State.fetched_keys, lowestKey_eq_none.2 hk, State.fetched_pc, hpc]
  rfl

/-- Settles O49: the wait's cycle is a fetch and a step back of PC. -/
theorem keyWaitHoldsThePc : Obligations.KeyWaitHoldsThePc := by
  rintro s ts hrun hts ⟨hf, ⟨x, hx⟩, hk⟩
  refine ⟨(s.beginCycle ts).writeIr s.nextWord, ?_, rfl, hf, ⟨x, hx⟩, hk⟩
  have hdec : decode (s.beginCycle ts).fetched.ir = .ok (.ldVxK x) := hx
  rw [step_cycleNext hts, cycle_fetched (s := s.beginCycle ts) hrun hf, decodeAndExecute, hdec]
  exact exec_ldVxK_fetched (s := s.beginCycle ts) x hk

/-! ### Reset -/

/-- Settles O2: a reset event is `State.construct`, which writes the font's 80 bytes over the initial memory. -/
theorem resetSetsEveryElement : Obligations.ResetSetsEveryElement := by
  intro s l ts hts
  refine ⟨Memory.writeBytes l.initM s.fontBase.val l.fontData.toList, ?_, fun a => ?_⟩
  · rw [step_external hts, takeEvent_ok rfl]
    rfl
  · rw [Memory.read_writeBytes, Vector.length_toList]

/-- Settles O3: the memory of `State.reset` lists no cell, so every address reads as unlisted. -/
theorem resetStateValues : Obligations.ResetStateValues := by
  refine ⟨by decide, rfl, rfl, fun j hj => ?_, fun a ha => ?_⟩
  · show Config.fontBytes.getD (0 + j - 0) 0 = _
    rw [Nat.zero_add, Nat.sub_zero]
  · have hlen : Config.fontBytes.length ≤ a := ha
    exact List.getD_eq_default _ _ hlen

/-- No event but a reset changes the fault record. -/
theorem applyEvent_fault (e : Event) (s : State) : (applyEvent e s).fault = s.fault ∨ ∃ l, e = .reset l := by
  cases e with
  | reset l => exact .inr ⟨l, rfl⟩
  | load image =>
    simp only [applyEvent, State.loadImage]
    split <;> exact .inl rfl
  | tick | keys k | display | sound => exact .inl rfl

/-- An event that answers a next state has its effect. -/
theorem takeEvent_cases {e : Event} {s t : State} (h : takeEvent e s = .next t) :
    e.mayHappen s = true ∧ t = applyEvent e s := by
  by_cases hm : e.mayHappen s = true
  · rw [takeEvent_ok hm] at h
    exact ⟨hm, by injection h with h; exact h.symm⟩
  · rw [takeEvent, if_neg hm] at h
    cases h

/-- Settles O8: `State.construct` clears the record, and only a load has a condition. -/
theorem onlyResetClearsFault : Obligations.OnlyResetClearsFault := by
  intro s e ts hts
  rw [step_external hts]
  refine ⟨fun t ht => ?_, fun hload => ⟨_, takeEvent_ok (mayHappen_of_not_load _ hload)⟩⟩
  obtain ⟨-, rfl⟩ := takeEvent_cases ht
  refine ⟨applyEvent_fault e (s.writeTurns ts), ?_⟩
  rintro l rfl
  rfl

end Sys2Proof.Machine
end

section
/-! Memory as the fetch and the store of the registers see it (20_memory.md): the fetch is big-endian, and a store is
seen by the very next fetch. -/

namespace Sys2Proof.Machine

open Sys2Proof

/-! ### What a fetch leaves in IR -/

/-- An instruction leaves IR as its fetch set it. -/
theorem exec_ir {i : Instr} {s t : State} (h : exec i s = .next t) : t.ir = s.ir := by
  cases exec_writes h with
  | _ => rfl

/-- Decoding and executing answers a next state and leaves IR, whether or not the word is known. -/
theorem decodeAndExecute_ir (s : State) : ∃ t, decodeAndExecute s = .next t ∧ t.ir = s.ir := by
  unfold decodeAndExecute
  cases decode s.ir with
  | ok i => exact ⟨_, exec_eq i s, exec_ir (exec_eq i s)⟩
  | error e => exact ⟨_, rfl, State.raise_ir ..⟩

/-- A cycle whose fetch is in range answers a next state, with the word at PC in IR. -/
theorem step_ir {s : State} {ts : List Turn} (hrun : s.running) (hts : s.cycleNext ts) (hf : s.fetchable) :
    ∃ t, step s = .next t ∧ t.ir = s.nextWord := by
  rw [step_cycleNext hts, cycle_fetched (s := s.beginCycle ts) hrun hf]
  exact decodeAndExecute_ir (s.beginCycle ts).fetched

/-- The next word is big-endian (20_memory.md R53). -/
theorem nextWord_toNat (s : State) :
    s.nextWord.toNat =
      (Memory.read s.mem s.pc.toNat).toNat * 256 + (Memory.read s.mem (s.pc.toNat + 1)).toNat :=
  wordOfBytes_toNat ..

/-- Settles O10: the cycle leaves the fetched word in IR, by `step_ir`, and that word is big-endian. -/
theorem fetchIsBigEndian : Obligations.FetchIsBigEndian := by
  intro s ts hrun hts hf
  obtain ⟨t, ht, hir⟩ := step_ir hrun hts hf
  exact ⟨t, ht, by rw [hir, nextWord_toNat]⟩

/-! ### The store of the registers -/

/-- LD [I], Vx with all its addresses in range writes V[0] to V[x] to memory from I up (43_index_memory.md R144). -/
theorem exec_ldMemVx_ok {x : Nibble} {s : State} (h : s.i.toNat + x.toNat < 4096) :
    exec (.ldMemVx x) s = .next (s.writeMem (Memory.writeBytes s.mem s.i.toNat (regsUpTo s.v x))) := by
  have hcheck : faultOf (.ldMemVx x) s = none := by
    simp only [faultOf, Option.map_eq_none_iff, checkRange_eq_none]
    omega
  exact exec_ok hcheck

/-- The byte at offset j of a store of the registers is V[j]. -/
theorem read_writeBytes_regsUpTo (m : Memory) (a : Nat) (v : Regs) {x j : Nibble} (h : j.toNat ≤ x.toNat) :
    Memory.read (Memory.writeBytes m a (regsUpTo v x)) (a + j.toNat) = regGet v j := by
  have hin : a ≤ a + j.toNat ∧ a + j.toNat < a + (regsUpTo v x).length := by rw [regsUpTo_length]; omega
  rw [Memory.read_writeBytes, if_pos hin, Nat.add_sub_cancel_left, regsUpTo_getD v h]

/-- Settles O58: the store puts V[0] and V[1] at PC and PC + 1 and leaves PC, and the next cycle fetches big-endian. -/
theorem storeIsSeenByNextFetch : Obligations.StoreIsSeenByNextFetch := by
  intro x s ts hi hx hrange hts hrun
  have hexec := exec_ldMemVx_ok (x := x) (s := s) (by rw [hi]; exact hrange)
  rw [hi] at hexec
  have hf : s.fetchable := by show s.pc.toNat ≤ 4094; omega
  obtain ⟨u, hu, hir⟩ :=
    fetchIsBigEndian (s.writeMem (Memory.writeBytes s.mem s.pc.toNat (regsUpTo s.v x))) ts hrun hts hf
  rw [State.writeMem_mem, State.writeMem_pc] at hir
  have h0 := read_writeBytes_regsUpTo s.mem s.pc.toNat s.v (x := x) (j := 0) (Nat.zero_le _)
  have h1 := read_writeBytes_regsUpTo s.mem s.pc.toNat s.v (x := x) (j := 1) hx
  refine ⟨_, u, hexec, hu, hir.trans ?_⟩
  exact congrArg₂ (fun hi lo : Byte => hi.toNat * 256 + lo.toNat) h0 h1

end Sys2Proof.Machine
end

section
/-! The decoder and the encoder (30_encoding.md): decoding is inverse to laying out an instruction's fields, whatever
the ignored nibble holds, and only the 8, E and F families have words without an operation. -/

namespace Sys2Proof

/-! ### The words of an instruction -/

/-- The word of `i` whose ignored nibble, where its row of R75 has one, holds `ign` (R73, R77). -/
def wordOf : Instr → Nibble → Word
  | .seReg x y, ign => wordXyn 0x5 x y ign
  | .sneReg x y, ign => wordXyn 0x9 x y ign
  | .shr x, ign => wordXyn 0x8 x ign 0x6
  | .shl x, ign => wordXyn 0x8 x ign 0xE
  | i, _ => encode i

/-- The encoding has the ignored nibble as 0 (R84). -/
theorem wordOf_zero (i : Instr) : wordOf i 0 = encode i := by
  cases i <;> rfl

/-- The word with its low nibble cleared. -/
theorem wordXyn_low_zero {op : Nat} (h : op < 16) (x y n : Nibble) :
    (wordXyn op x y 0).toNat = (wordXyn op x y n).toNat - (wordXyn op x y n).toNat % 16 := by
  have := n.isLt
  rw [wordXyn_toNat h, wordXyn_toNat h, BitVec.ofNat_eq_ofNat, BitVec.toNat_zero]
  omega

/-- The word with its y nibble cleared. -/
theorem wordXyn_y_zero {op : Nat} (h : op < 16) (x y n : Nibble) :
    (wordXyn op x 0 n).toNat = (wordXyn op x y n).toNat - 16 * ((wordXyn op x y n).toNat / 16 % 16) := by
  have := y.isLt
  have := n.isLt
  rw [wordXyn_toNat h, wordXyn_toNat h, BitVec.ofNat_eq_ofNat, BitVec.toNat_zero]
  omega

/-! ### Decoding a word of a known high nibble -/

theorem decode_of_op_zero {w : Word} (h : (opField w).toNat = 0x0) : decode w = .ok (decode0 w) := by
  simp only [decode, h]

theorem decode_of_op_eight {w : Word} (h : (opField w).toNat = 0x8) : decode w = decode8 w := by
  simp only [decode, h]

theorem decode_of_op_E {w : Word} (h : (opField w).toNat = 0xE) : decode w = decodeE w := by
  simp only [decode, h]

theorem decode_of_op_F {w : Word} (h : (opField w).toNat = 0xF) : decode w = decodeF w := by
  simp only [decode, h]

theorem wellFormed_sys {nnn : Addr12} : WellFormed (.sys nnn) ↔ nnn ≠ 0x0E0 ∧ nnn ≠ 0x0EE := by
  simp [WellFormed, Instr.wellFormed]

/-- A word of the 0 family other than CLS and RET is SYS (R76). -/
theorem decode_wordNnn_zero {nnn : Addr12} (h : WellFormed (.sys nnn)) : decode (wordNnn 0x0 nnn) = .ok (.sys nnn) := by
  obtain ⟨hcls, hret⟩ := wellFormed_sys.mp h
  have hfield : nnnField (wordNnn 0x0 nnn) = nnn := nnnField_wordNnn (by decide) nnn
  have hnotCls : wordNnn 0x0 nnn ≠ 0x00E0 := fun hw => hcls (hfield ▸ congrArg nnnField hw)
  have hnotRet : wordNnn 0x0 nnn ≠ 0x00EE := fun hw => hret (hfield ▸ congrArg nnnField hw)
  rw [decode_of_op_zero (opField_wordNnn (by decide) nnn), decode0, if_neg hnotCls, if_neg hnotRet, hfield]

/-- Every word of a well-formed instruction decodes to it, whatever the ignored nibble holds. -/
theorem decode_wordOf {i : Instr} (h : WellFormed i) (ign : Nibble) : decode (wordOf i ign) = .ok i := by
  cases i with
  | sys nnn => exact decode_wordNnn_zero h
  | cls => exact (by decide : decode 0x00E0 = .ok .cls)
  | ret => exact (by decide : decode 0x00EE = .ok .ret)
  | jp nnn | call nnn | ldI nnn | jpV0 nnn =>
    simp [wordOf, encode, decode, opField_wordNnn, nnnField_wordNnn]
  | seImm x kk | sneImm x kk | ldImm x kk | addImm x kk | rnd x kk =>
    simp [wordOf, encode, decode, opField_wordXkk, xField_wordXkk, kkField_wordXkk]
  | seReg x y | sneReg x y | drw x y n =>
    simp [wordOf, encode, decode, opField_wordXyn, xField_wordXyn, yField_wordXyn, nField_wordXyn]
  | ldReg x y | orReg x y | andReg x y | xorReg x y | addReg x y | subReg x y | shr x | subnReg x y | shl x =>
    refine (decode_of_op_eight (opField_wordXyn (by decide) ..)).trans ?_
    simp [decode8, xField_wordXyn, yField_wordXyn, nField_wordXyn]
  | skp x | sknp x =>
    refine (decode_of_op_E (opField_wordXkk (by decide) ..)).trans ?_
    simp [decodeE, xField_wordXkk, kkField_wordXkk]
  | ldVxDt x | ldVxK x | ldDtVx x | ldStVx x | addI x | ldF x | ldB x | ldMemVx x | ldVxMem x =>
    refine (decode_of_op_F (opField_wordXkk (by decide) ..)).trans ?_
    simp [decodeF, xField_wordXkk, kkField_wordXkk]

/-! ### What a decoded word is -/

theorem eq_wordNnn {w : Word} {op : Nat} (h : (opField w).toNat = op) : w = wordNnn op (nnnField w) :=
  h ▸ word_eq_wordNnn w

theorem eq_wordXkk {w : Word} {op : Nat} (h : (opField w).toNat = op) : w = wordXkk op (xField w) (kkField w) :=
  h ▸ word_eq_wordXkk w

theorem eq_wordXyn {w : Word} {op : Nat} (h : (opField w).toNat = op) :
    w = wordXyn op (xField w) (yField w) (nField w) :=
  h ▸ word_eq_wordXyn w

theorem eq_wordXkk_of_low8 {w : Word} {op low : Nat} (h : (opField w).toNat = op) (hlow : (kkField w).toNat = low) :
    w = wordXkk op (xField w) (BitVec.ofNat 8 low) := by
  rw [← hlow, BitVec.ofNat_toNat, BitVec.setWidth_eq]
  exact eq_wordXkk h

theorem eq_wordXyn_of_low4 {w : Word} {op low : Nat} (h : (opField w).toNat = op) (hlow : (nField w).toNat = low) :
    w = wordXyn op (xField w) (yField w) (BitVec.ofNat 4 low) := by
  rw [← hlow, BitVec.ofNat_toNat, BitVec.setWidth_eq]
  exact eq_wordXyn h

/-- `w` is a word of the well-formed instruction `i`. -/
def IsWordOf (w : Word) (i : Instr) : Prop := WellFormed i ∧ ∃ ign, w = wordOf i ign

theorem decode0_isWordOf {w : Word} (hop : (opField w).toNat = 0x0) : IsWordOf w (decode0 w) := by
  have hw := eq_wordNnn hop
  unfold decode0
  split
  · next h => exact ⟨rfl, 0, h⟩
  · next hcls =>
    split
    · next h => exact ⟨rfl, 0, h⟩
    · next hret =>
      have hcls' : nnnField w ≠ 0x0E0 := fun h => hcls (by rw [hw, h]; rfl)
      have hret' : nnnField w ≠ 0x0EE := fun h => hret (by rw [hw, h]; rfl)
      exact ⟨wellFormed_sys.mpr ⟨hcls', hret'⟩, 0, hw⟩

theorem decode8_isWordOf {w : Word} {i : Instr} (hop : (opField w).toNat = 0x8) (h : decode8 w = .ok i) :
    IsWordOf w i := by
  unfold decode8 at h
  split at h <;> cases h
  all_goals next hlow => exact ⟨rfl, yField w, eq_wordXyn_of_low4 hop hlow⟩

theorem decodeE_isWordOf {w : Word} {i : Instr} (hop : (opField w).toNat = 0xE) (h : decodeE w = .ok i) :
    IsWordOf w i := by
  unfold decodeE at h
  split at h <;> cases h
  all_goals next hlow => exact ⟨rfl, 0, eq_wordXkk_of_low8 hop hlow⟩

theorem decodeF_isWordOf {w : Word} {i : Instr} (hop : (opField w).toNat = 0xF) (h : decodeF w = .ok i) :
    IsWordOf w i := by
  unfold decodeF at h
  split at h <;> cases h
  all_goals next hlow => exact ⟨rfl, 0, eq_wordXkk_of_low8 hop hlow⟩

/-- A word that decodes is a word of its instruction, and each row gives back the fields it reads (R74, R75). -/
theorem isWordOf_of_decode {w : Word} {i : Instr} (h : decode w = .ok i) : IsWordOf w i := by
  unfold decode at h
  split at h
  -- the cases by the form of the row: 0nnn, then nnn, then x and kk, then x and y, then the 8, E and F families
  case h_1 hop => cases h; exact decode0_isWordOf hop
  case h_2 hop | h_3 hop | h_11 hop | h_12 hop => cases h; exact ⟨rfl, 0, eq_wordNnn hop⟩
  case h_4 hop | h_5 hop | h_7 hop | h_8 hop | h_13 hop => cases h; exact ⟨rfl, 0, eq_wordXkk hop⟩
  case h_6 hop | h_10 hop | h_14 hop => cases h; exact ⟨rfl, nField w, eq_wordXyn hop⟩
  case h_9 hop => exact decode8_isWordOf hop h
  case h_15 hop => exact decodeE_isWordOf hop h
  case h_16 =>
    have := (opField w).isLt
    simp only [imp_false] at *
    exact decodeF_isWordOf (by omega) h

/-- A word decodes to `i` exactly when it is a word of `i`, which is then well formed. -/
theorem decode_eq_ok_iff {w : Word} {i : Instr} : decode w = .ok i ↔ IsWordOf w i := by
  constructor
  · exact isWordOf_of_decode
  · rintro ⟨hwf, ign, rfl⟩
    exact decode_wordOf hwf ign

/-! ### The words of no operation -/

theorem decode8_error_iff (w : Word) :
    (∃ e, decode8 w = .error e) ↔ (nField w).toNat ∈ [0x8, 0x9, 0xA, 0xB, 0xC, 0xD, 0xF] := by
  have := (nField w).isLt
  unfold decode8
  split
  case h_10 =>
    refine iff_of_true ⟨_, rfl⟩ ?_
    simp only [List.mem_cons, List.not_mem_nil, or_false, imp_false] at *
    omega
  all_goals next hlow => simp [hlow]

theorem decodeE_error_iff (w : Word) :
    (∃ e, decodeE w = .error e) ↔ (kkField w).toNat ∉ [0x9E, 0xA1] := by
  have := (kkField w).isLt
  unfold decodeE
  split
  case h_3 =>
    refine iff_of_true ⟨_, rfl⟩ ?_
    simp only [List.mem_cons, List.not_mem_nil, or_false, imp_false] at *
    omega
  all_goals next hlow => simp [hlow]

theorem decodeF_error_iff (w : Word) :
    (∃ e, decodeF w = .error e) ↔ (kkField w).toNat ∉ [0x07, 0x0A, 0x15, 0x18, 0x1E, 0x29, 0x33, 0x55, 0x65] := by
  have := (kkField w).isLt
  unfold decodeF
  split
  case h_10 =>
    refine iff_of_true ⟨_, rfl⟩ ?_
    simp only [List.mem_cons, List.not_mem_nil, or_false, imp_false] at *
    omega
  all_goals next hlow => simp [hlow]

/-- A word decodes to no operation exactly when its family is one of the three that refuse words, and refuses it. -/
theorem decode_error_iff (w : Word) :
    (∃ e, decode w = .error e) ↔
      ((opField w).toNat = 0x8 ∧ ∃ e, decode8 w = .error e) ∨
      ((opField w).toNat = 0xE ∧ ∃ e, decodeE w = .error e) ∨
      ((opField w).toNat = 0xF ∧ ∃ e, decodeF w = .error e) := by
  have := (opField w).isLt
  unfold decode
  split
  case h_16 =>
    simp only [imp_false] at *
    have hop : (opField w).toNat = 0xF := by omega
    simp [hop]
  all_goals next hop => simp [hop]

/-! ### The obligations of 30_encoding.md -/

/-- Settles O17: the encoding is a word of the instruction, so it decodes to it by `decode_wordOf`. -/
theorem decodeOfEncodeIsSame : Obligations.DecodeOfEncodeIsSame := by
  intro i hwf
  rw [← wordOf_zero]
  exact decode_wordOf hwf 0

/-- Settles O18: by `decode_eq_ok_iff` the word is one of the instruction's, which differ in the ignored nibble. -/
theorem encodeOfDecodeKeepsOperandBits : Obligations.EncodeOfDecodeKeepsOperandBits := by
  intro w i h
  obtain ⟨hwf, ign, rfl⟩ := decode_eq_ok_iff.mp h
  refine ⟨hwf, ?_⟩
  cases i with
  | seReg x y | sneReg x y => exact wordXyn_low_zero (by decide) x y ign
  | shr x | shl x => exact wordXyn_y_zero (by decide) x ign _
  | _ => rfl

/-- Settles O19, from the refusals of the three families. -/
theorem unknownWordsAreThese : Obligations.UnknownWordsAreThese := by
  intro w
  rw [decode_error_iff, decode8_error_iff, decodeE_error_iff, decodeF_error_iff, opField_toNat, nField_toNat,
    kkField_toNat]

/-- Settles O20: the low nibble is the ignored nibble of the two register skips. -/
theorem lowNibbleIgnoredInRegisterSkips : Obligations.LowNibbleIgnoredInRegisterSkips := by
  intro x y n
  exact ⟨decode_wordOf (i := .seReg x y) rfl n, decode_wordOf (i := .sneReg x y) rfl n⟩

/-- Settles O21: each sample is a closed word, so the decoder evaluates on it. -/
theorem sampleWordsDecode : Obligations.SampleWordsDecode := by
  unfold Obligations.SampleWordsDecode
  decide

end Sys2Proof
end

section
/-! The dispatcher (40_dispatcher.md): the three ways a step whose move is a cycle goes, one lemma each, by the fault
record and by the range of the fetch. -/

namespace Sys2Proof.Machine

open Sys2Proof

/-- With no record set and the fetch in range, the step decodes and executes in the state its fetch leaves. -/
theorem step_fetched {s : State} {ts : List Turn} (hrun : s.running) (hts : s.cycleNext ts) (hf : s.fetchable) :
    step s = decodeAndExecute (s.beginCycle ts).fetched :=
  (step_cycleNext hts).trans (cycle_fetched (s := s.beginCycle ts) hrun hf)

/-- Decoding and executing is `exec` of the instruction IR decodes to. -/
theorem decodeAndExecute_of_decode {s : State} {i : Instr} (h : decode s.ir = .ok i) :
    decodeAndExecute s = exec i s := by
  rw [decodeAndExecute, h]

/-- Settles O9: IR holds the word at PC after the fetch, so `decodeAndExecute` runs its instruction. -/
theorem stepRunsDecodedInstruction : Obligations.StepRunsDecodedInstruction := by
  intro s ts i hrun hts hf hdec
  have hir : decode (s.beginCycle ts).fetched.ir = .ok i := hdec
  exact (step_fetched hrun hts hf).trans (decodeAndExecute_of_decode hir)

/-- Settles O11: the failed fetch latches the fault at the old PC, by `cycle_fetch_fault`. -/
theorem fetchOutOfRangeFaults : Obligations.FetchOutOfRangeFaults := by
  intro s ts hrun hts hpc
  exact (step_cycleNext hts).trans (cycle_fetch_fault (s := s.beginCycle ts) hrun hpc)

/-- Settles O13: beginning a cycle keeps the record, and `cycle_faulted` stops on it. -/
theorem faultedCoreHasNoCycle : Obligations.FaultedCoreHasNoCycle := by
  intro s ts r hr hts
  exact (step_cycleNext hts).trans (cycle_faulted (s := s.beginCycle ts) hr)

/-- A cycle of a core that has not faulted answers a next state, wherever PC stands. -/
theorem step_next_of_running {s : State} {ts : List Turn} (hrun : s.running) (hts : s.cycleNext ts) :
    ∃ t, step s = .next t := by
  by_cases hpc : 4095 ≤ s.pc.toNat
  · exact ⟨_, fetchOutOfRangeFaults s ts hrun hts hpc⟩
  · have hf : s.fetchable := by show s.pc.toNat ≤ 4094; omega
    obtain ⟨t, ht, -⟩ := step_ir hrun hts hf
    exact ⟨t, ht⟩

/-- Settles O16: by `exec_eq` every instruction answers a next state, and the fault record decides about the cycle. -/
theorem everyCycleEndsOkOrFaulted : Obligations.EveryCycleEndsOkOrFaulted := by
  refine ⟨fun i s => ⟨_, exec_eq i s⟩, fun s ts hts => ?_⟩
  cases hfault : s.fault with
  | none => exact .inl ⟨hfault, step_next_of_running hfault hts⟩
  | some r => exact .inr ⟨r, rfl, faultedCoreHasNoCycle s ts r hfault hts⟩

end Sys2Proof.Machine
end

section
/-! Control flow (41_control_flow.md): SYS, the jumps, the two ends of a subroutine and the register skips. -/

namespace Sys2Proof.Machine

open Sys2Proof

/-! ### SYS and the jumps -/

/-- Settles O22: SYS_MODE alone decides the check of SYS, and SYS has no effect when the check passes. -/
theorem sysFollowsItsMode : Obligations.SysFollowsItsMode := by
  intro nnn s
  constructor
  · intro hnop
    have hcheck : faultOf (.sys nnn) s = none := by simp [faultOf, hnop]
    exact exec_ok hcheck
  · intro hfault
    have hcheck : faultOf (.sys nnn) s = some (.unknownOpcode s.ir) := by simp [faultOf, hfault]
    exact exec_fault hcheck

/-- Settles O24: a jump has no check and writes PC alone; the target of JP V0 is a 12-bit sum. -/
theorem jumpsSetPc : Obligations.JumpsSetPc := by
  intro nnn s
  refine ⟨exec_ok rfl, s.writePc (sum12 (s.readV 0).toNat nnn.toNat), exec_ok rfl, rfl, ?_⟩
  exact sum12_toNat ..

/-! ### CALL and RET -/

/-- RET with k + 1 calls pending returns to the address in slot k (41_control_flow.md R102). -/
theorem exec_ret_pops {s : State} {k : Fin 16} (hk : s.sp.val = k.val + 1) :
    exec .ret s = .next { s with sp := k.castSucc, pc := s.stack[k] } := by
  have hpop : exec .ret s = _ := popPc_ok (by omega)
  simp only [hk, Nat.add_sub_cancel] at hpop
  exact hpop

/-- CALL with k calls pending puts the return address in slot k (41_control_flow.md R104). -/
theorem exec_call_pushes {s : State} {k : Fin 16} (nnn : Addr12) (hk : s.sp.val = k.val) :
    exec (.call nnn) s =
      .next { s with stack := s.stack.set k.val s.pc, sp := k.succ, pc := zext12 nnn } := by
  have hpush : exec (.call nnn) s = _ := pushPc_ok (fun s1 => s1.writePc (zext12 nnn)) (by omega)
  simp only [hk] at hpush
  exact hpush

/-- Settles O23: below the empty stack by `exec_ret_pops`, and with no call pending by the check of RET. -/
theorem retPopsOrUnderflows : Obligations.RetPopsOrUnderflows := by
  intro s
  refine ⟨fun k hk => exec_ret_pops hk, fun hempty => ?_⟩
  have hcheck : faultOf .ret s = some (.stackUnderflow 0) := by simp [faultOf, hempty]
  exact exec_fault hcheck

/-- Settles O25: below depth 16 by `exec_call_pushes`, and at depth 16 by the check of CALL. -/
theorem callPushesOrOverflows : Obligations.CallPushesOrOverflows := by
  intro nnn s
  refine ⟨fun k hk => exec_call_pushes nnn hk, fun hfull => ?_⟩
  have hcheck : faultOf (.call nnn) s = some (.stackOverflow 16) := by simp [faultOf, hfull]
  exact exec_fault hcheck

/-- Settles O26: RET reads the slot k the CALL wrote, where k is SP before the CALL. -/
theorem callRetRoundTrip : Obligations.CallRetRoundTrip := by
  intro nnn s hsp
  let k : Fin 16 := ⟨s.sp.val, hsp⟩
  refine ⟨_, exec_call_pushes (k := k) nnn rfl, fun u hu hslot => ?_⟩
  have hdepth : u.sp.val = k.val + 1 := congrArg Fin.val hu
  refine ⟨_, exec_ret_pops hdepth, ?_, rfl⟩
  calc u.stack[k] = (s.stack.set k.val s.pc)[k.val] := hslot
    _ = s.pc := Vector.getElem_set_self ..

/-! ### The register skips -/

/-- A skip on equality, with the compared values as a proposition (41_control_flow.md R100). -/
theorem skipIf_beq (s : State) (a b : Byte) :
    s.skipIf (a == b) = { s with pc := if a = b then s.pc + 2 else s.pc } := by
  simp only [skipIf_eq, beq_iff_eq]

/-- A skip on inequality, with the compared values as a proposition (41_control_flow.md R100). -/
theorem skipIf_bne (s : State) (a b : Byte) :
    s.skipIf (a != b) = { s with pc := if a = b then s.pc else s.pc + 2 } := by
  simp only [skipIf_eq, bne_iff_ne, ite_not]

/-- Settles O27: a register skip has no check, and its effect is a skip on (in)equality. -/
theorem registerSkipsOnCondition : Obligations.RegisterSkipsOnCondition := by
  intro x y kk s
  rw [← skipIf_beq, ← skipIf_bne, ← skipIf_beq, ← skipIf_bne]
  exact ⟨exec_ok rfl, exec_ok rfl, exec_ok rfl, exec_ok rfl⟩

end Sys2Proof.Machine
end

section
/-! The ALU (42_alu.md): the values its instructions compute, as numbers, and what they leave in V[x] and VF. No ALU
instruction has a check, so each has its effect in every state. -/

namespace Sys2Proof.Machine

open Sys2Proof

/-! ### The values as numbers -/

/-- A byte is the numeral of its value. -/
theorem byte_eq_ofNat {a : Byte} {n : Nat} (h : a.toNat = n) : a = BitVec.ofNat 8 n := by
  rw [← h, BitVec.ofNat_toNat, BitVec.setWidth_eq]

/-- A sum of registers wraps modulo 256 (R120). -/
theorem byte_add_eq_ofNat (a b : Byte) : a + b = BitVec.ofNat 8 ((a.toNat + b.toNat) % 256) :=
  byte_eq_ofNat (BitVec.toNat_add a b)

/-- A difference of registers wraps modulo 256 (R120). -/
theorem byte_sub_eq_ofNat (a b : Byte) : a - b = BitVec.ofNat 8 ((a.toNat + 256 - b.toNat) % 256) := by
  have hb := b.isLt
  apply byte_eq_ofNat
  rw [BitVec.toNat_sub]
  omega

theorem byte_shr_one_toNat (a : Byte) : (a >>> 1).toNat = a.toNat / 2 := by
  rw [BitVec.toNat_ushiftRight, Nat.shiftRight_eq_div_pow]

theorem byte_shl_one_toNat (a : Byte) : (a <<< 1).toNat = 2 * a.toNat % 256 := by
  rw [BitVec.toNat_shiftLeft, Nat.shiftLeft_eq]
  omega

theorem carryFlag_eq (a b : Byte) : carryFlag a b = if 255 < a.toNat + b.toNat then 1 else 0 :=
  flagOf_decide _

theorem greaterFlag_eq (a b : Byte) : greaterFlag a b = if b.toNat < a.toNat then 1 else 0 :=
  flagOf_decide _

theorem lowBitFlag_toNat (a : Byte) : (lowBitFlag a).toNat = a.toNat % 2 := by
  rw [lowBitFlag, BitVec.toNat_and]
  exact Nat.and_one_is_mod _

/-- The mask and the shift leave bit 7 as a number, which is the byte's quotient by 128. -/
theorem highBitFlag_toNat (a : Byte) : (highBitFlag a).toNat = a.toNat / 128 := by
  have ha := a.isLt
  calc (highBitFlag a).toNat = (a.toNat &&& 128) >>> 7 := BitVec.toNat_ushiftRight ..
    _ = a.toNat >>> 7 &&& 1 := Nat.shiftRight_and_distrib
    _ = a.toNat / 128 % 2 := by rw [Nat.and_one_is_mod, Nat.shiftRight_eq_div_pow]
    _ = a.toNat / 128 := by omega

/-! ### Loads, the immediate add and logic: one register write -/

/-- Settles O28: each has no check and writes V[x] alone; the sum wraps. -/
theorem loadsAndImmediateAdd : Obligations.LoadsAndImmediateAdd := by
  intro x y kk s
  rw [← byte_add_eq_ofNat]
  exact ⟨exec_ok rfl, exec_ok rfl, exec_ok rfl⟩

/-- Settles O29: each has no check and writes V[x] alone. -/
theorem logicWritesVxAlone : Obligations.LogicWritesVxAlone :=
  fun _ _ _ => ⟨exec_ok rfl, exec_ok rfl, exec_ok rfl⟩

/-! ### The flag instructions: VF, then V[x] -/

/-- Settles O30: the effect writes the carry flag and then the sum, both of the old registers. -/
theorem addWritesCarryThenSum : Obligations.AddWritesCarryThenSum := by
  intro x y s
  rw [← carryFlag_eq, ← byte_add_eq_ofNat]
  exact exec_ok rfl

/-- Settles O31: the effect writes the strict comparison and then the difference, read after the VF write. -/
theorem subtractsFlagThenDifference : Obligations.SubtractsFlagThenDifference := by
  intro x y s
  simp only [← greaterFlag_eq, ← byte_sub_eq_ofNat]
  exact ⟨exec_ok rfl, exec_ok rfl⟩

/-- Settles O32: the effect writes the bit shifted out and then the shift, read after the VF write. -/
theorem shiftsFlagThenShift : Obligations.ShiftsFlagThenShift := by
  intro x s
  rw [← byte_eq_ofNat (lowBitFlag_toNat _), ← byte_eq_ofNat (highBitFlag_toNat _)]
  constructor
  · intro v1
    rw [← byte_eq_ofNat (byte_shr_one_toNat _)]
    exact exec_ok rfl
  · intro v1
    rw [← byte_eq_ofNat (byte_shl_one_toNat _)]
    exact exec_ok rfl

/-! ### Operands other than VF -/

/-- Carry and sum together are the exact sum (R127). -/
theorem byte_add_carryFlag (a b : Byte) :
    (a + b).toNat + 256 * (carryFlag a b).toNat = a.toNat + b.toNat := by
  have ha := a.isLt
  have hb := b.isLt
  rw [BitVec.toNat_add, carryFlag_eq]
  split
  · change _ + 256 * 1 = _
    omega
  · change _ + 256 * 0 = _
    omega

/-- The comparison flag is 1 or 0 and says which operand is greater (R128). -/
theorem greaterFlag_cases (a b : Byte) :
    greaterFlag a b = 1 ∧ b.toNat < a.toNat ∨ greaterFlag a b = 0 ∧ a.toNat ≤ b.toNat := by
  rw [greaterFlag_eq]
  split
  · next h => exact .inl ⟨rfl, h⟩
  · next h => exact .inr ⟨rfl, Nat.not_lt.mp h⟩

/-- The halved byte and the bit shifted out are the byte (R129). -/
theorem byte_shr_lowBitFlag (a : Byte) :
    2 * (a >>> 1).toNat + (lowBitFlag a).toNat = a.toNat ∧ (lowBitFlag a).toNat ≤ 1 := by
  rw [byte_shr_one_toNat, lowBitFlag_toNat]
  omega

/-- The doubled byte and the bit shifted out are the exact double (R131). -/
theorem byte_shl_highBitFlag (a : Byte) :
    (a <<< 1).toNat + 256 * (highBitFlag a).toNat = 2 * a.toNat ∧ (highBitFlag a).toNat ≤ 1 := by
  have ha := a.isLt
  rw [byte_shl_one_toNat, highBitFlag_toNat]
  omega

/-- A read after the VF write finds the old value in every other register. -/
theorem readV_writeV_vf_of_ne {x : Nibble} (hx : x ≠ 15) (s : State) (flag : Byte) :
    (s.writeV vf flag).readV x = s.readV x :=
  State.readV_writeV_ne s flag hx

/-- Settles O33: VF holds the flag and V[x] the result of the old operands, whose arithmetic the lemmas above say. -/
theorem aluFlagAndResultApartFromVf : Obligations.AluFlagAndResultApartFromVf := by
  intro x y s hx hy
  refine ⟨⟨_, exec_ok rfl, ?add⟩, ⟨_, exec_ok rfl, ?sub⟩, ⟨_, exec_ok rfl, ?subn⟩, ⟨_, exec_ok rfl, ?shr⟩,
    ⟨_, exec_ok rfl, ?shl⟩⟩
  all_goals
    simp only [effectOf, flagThenWrite_readV hx, readV_writeV_vf_of_ne hx, readV_writeV_vf_of_ne hy, true_and]
  case add => exact byte_add_carryFlag ..
  case sub | subn => exact greaterFlag_cases ..
  case shr => exact byte_shr_lowBitFlag _
  case shl => exact byte_shl_highBitFlag _

/-! ### Random -/

/-- Settles O34: masking is idempotent, so the masked draw has no bit outside kk. -/
theorem rndMasksTheDraw : Obligations.RndMasksTheDraw := by
  intro x kk s
  refine ⟨_, exec_ok rfl, rfl, ?_⟩
  have hread : (effectOf (.rnd x kk) s).readV x = Config.randomByte s.draws &&& kk := State.readV_writeV_same ..
  rw [hread, BitVec.and_assoc, BitVec.and_self]

end Sys2Proof.Machine
end

section
/-! The index register and the memory transfers (43_index_memory.md): what I becomes, the bytes LD B and LD [I], Vx
write, and the registers LD Vx, [I] reads back. -/

namespace Sys2Proof.Machine

open Sys2Proof

/-! ### The index register -/

/-- Settles O35: LD I has no check and writes I alone. -/
theorem ldIndexSetsI : Obligations.LdIndexSetsI :=
  fun _ _ => exec_ok rfl

/-- Settles O36: both write I alone; ADD I writes a 12-bit sum, and no glyph address is truncated. -/
theorem indexArithmetic : Obligations.IndexArithmetic := by
  intro x s
  exact ⟨⟨_, exec_ok rfl, rfl, sum12_toNat ..⟩, ⟨_, exec_ok rfl, rfl, glyphAddress_toNat ..⟩⟩

/-! ### The check of a memory access, in the shape of `faultOf` -/

/-- The check of a guarded access passes when its whole range is in memory. -/
theorem boundsCheck_passes {addr n : Nat} (acc : Access) (h : addr + n ≤ 4096) :
    (checkRange addr n).map (FaultCause.boundsViolation acc) = none := by
  rw [checkRange_eq_none.2 (.inr h), Option.map_none]

/-- The check of a guarded access fails when its range leaves memory, and names the lowest address outside. -/
theorem boundsCheck_fails {addr n : Nat} (acc : Access) (hn : n ≠ 0) (h : 4096 < addr + n) :
    (checkRange addr n).map (FaultCause.boundsViolation acc) = some (.boundsViolation acc (max addr 4096)) := by
  rw [checkRange_eq_some.2 ⟨hn, h, rfl⟩, Option.map_some]

/-! ### LD B -/

/-- LD B with its three addresses in range writes the three digits to memory from I up (43_index_memory.md R143). -/
theorem exec_ldB_ok {x : Nibble} {s : State} (h : s.i.toNat + 2 < 4096) :
    exec (.ldB x) s = .next (s.writeMem (Memory.writeBytes s.mem s.i.toNat (bcdDigits (s.readV x)))) :=
  exec_ok (boundsCheck_passes .bcd h)

/-- LD B with an address out of range raises the bounds violation of its check (60_exceptions.md R172). -/
theorem exec_ldB_fault {x : Nibble} {s : State} (h : 4096 ≤ s.i.toNat + 2) :
    exec (.ldB x) s = .next (s.raise (.boundsViolation .bcd (max s.i.toNat 4096))) :=
  exec_fault (boundsCheck_fails .bcd (by decide) (Nat.lt_succ_of_le h))

/-- The digits of a byte, as numbers: each is below 256, so none is truncated. -/
theorem bcdDigits_map_toNat (b : Byte) :
    (bcdDigits b).map BitVec.toNat = [b.toNat / 100, b.toNat / 10 % 10, b.toNat % 10] := by
  have hb := b.isLt
  simp only [bcdDigits, List.map_cons, List.map_nil, BitVec.toNat_ofNat, List.cons.injEq, and_true]
  omega

/-- The byte at offset k of a byte string written to memory is the string's k-th byte. -/
theorem read_writeBytes_offset (m : Memory) (a : Nat) {bs : List Byte} {k : Nat} (h : k < bs.length) :
    Memory.read (Memory.writeBytes m a bs) (a + k) = bs[k] := by
  have hin : a ≤ a + k ∧ a + k < a + bs.length := by omega
  rw [Memory.read_writeBytes, if_pos hin, Nat.add_sub_cancel_left, List.getD_eq_getElem]

/-- The byte at offset k of the digits LD B stores, as a number. -/
theorem read_writeBytes_bcdDigits (m : Memory) (a : Nat) (b : Byte) {k : Nat} (h : k < 3) :
    (Memory.read (Memory.writeBytes m a (bcdDigits b)) (a + k)).toNat =
      [b.toNat / 100, b.toNat / 10 % 10, b.toNat % 10][k] := by
  have hk : k < (bcdDigits b).length := h
  calc (Memory.read (Memory.writeBytes m a (bcdDigits b)) (a + k)).toNat
    _ = (bcdDigits b)[k].toNat := by rw [read_writeBytes_offset m a hk]
    _ = ((bcdDigits b).map BitVec.toNat)[k]'(by simpa using hk) := (List.getElem_map ..).symm
    _ = _ := by simp only [bcdDigits_map_toNat]

/-- Settles O37: in range the store is three bytes long and holds the digits, and out of range the check fails. -/
theorem bcdStoresThreeDigits : Obligations.BcdStoresThreeDigits := by
  intro x s
  refine ⟨fun hrange => ⟨_, exec_ldB_ok hrange, rfl, ?_⟩, fun hout => exec_ldB_fault hout⟩
  have hdigit {k : Nat} (hk : k < 3) := read_writeBytes_bcdDigits s.mem s.i.toNat (s.readV x) hk
  exact ⟨hdigit (k := 0) (by decide), hdigit (k := 1) (by decide), hdigit (k := 2) (by decide),
    fun a ha => Memory.read_writeBytes_outside _ _ _ _ ha⟩

/-! ### LD [I], Vx and LD Vx, [I] -/

/-- Settles O38: the store is `regsUpTo`, whose byte at offset j is V[j] and whose length is x + 1. -/
theorem storeRegistersToMemory : Obligations.StoreRegistersToMemory := by
  intro x s hrange
  refine ⟨_, exec_ldMemVx_ok hrange, rfl, fun j hj => read_writeBytes_regsUpTo s.mem s.i.toNat s.v hj, fun a ha => ?_⟩
  apply Memory.read_writeBytes_outside
  rwa [regsUpTo_length]

/-- LD Vx, [I] with all its addresses in range loads V[0] to V[x] from memory from I up (43_index_memory.md R145). -/
theorem exec_ldVxMem_ok {x : Nibble} {s : State} (h : s.i.toNat + x.toNat < 4096) :
    exec (.ldVxMem x) s = .next (s.writeRegs (regsLoaded s.v s.mem s.i.toNat x)) :=
  exec_ok (boundsCheck_passes .load h)

/-- Settles O39: the load writes the registers alone, and `regGet_regsLoaded` says what each then holds. -/
theorem loadRegistersFromMemory : Obligations.LoadRegistersFromMemory :=
  fun x s hrange => ⟨_, exec_ldVxMem_ok hrange, rfl, fun j => regGet_regsLoaded s.v s.mem s.i.toNat x j⟩

/-- Settles O40: the load reads V[j] at the address where the store put it, since I and memory are those of the store. -/
theorem storeThenLoadRestoresRegisters : Obligations.StoreThenLoadRestoresRegisters := by
  intro x s hrange
  obtain ⟨t, hstore, hframe, hstored, -⟩ := storeRegistersToMemory x s hrange
  have hti : t.i = s.i := by rw [hframe]
  refine ⟨t, hstore, fun u hui hum => ?_⟩
  have hi : u.i = s.i := hui.trans hti
  obtain ⟨w, hload, -, hloaded⟩ := loadRegistersFromMemory x u (hi ▸ hrange)
  refine ⟨w, hload, fun j hj => ?_⟩
  calc w.readV j = Memory.read u.mem (u.i.toNat + j.toNat) := by rw [hloaded, if_pos hj]
    _ = Memory.read t.mem (s.i.toNat + j.toNat) := by rw [hum, hi]
    _ = s.readV j := hstored j hj

end Sys2Proof.Machine
end

section
/-! The display (44_display.md): CLS, and what DRW does to each cell and to VF, from the laws of the blitter. -/

namespace Sys2Proof.Machine

open Sys2Proof

/-! ### CLS -/

/-- Settles O42: CLS has no check, and every cell of `fbClear` is off. -/
theorem clsTurnsEveryCellOff : Obligations.ClsTurnsEveryCellOff := by
  refine fun s => ⟨s.writeFb fbClear, exec_ok rfl, rfl, fun x y hx hy => ?_⟩
  exact (fbGet_of_lt fbClear x y hx hy).symm.trans (fbGet_fbClear x y)

/-! ### One DRW -/

/-- The sprite that DRW Vx, Vy, n draws from `s` covers the cell (cx, cy): its operands as they are before the draw
(44_display.md R152, D15). -/
def State.drwCovers (s : State) (x y n : Nibble) (cx cy : Nat) : Prop :=
  SpriteCovers s.mem s.i.toNat n.toNat (s.readV x).toNat (s.readV y).toNat cx cy

/-- DRW of a sprite in range, or of no rows, draws it (44_display.md R152, D16). -/
theorem exec_drw_ok {x y n : Nibble} {s : State} (h : n = 0 ∨ s.i.toNat + n.toNat ≤ 4096) :
    exec (.drw x y n) s = .next (drawSprite x y n s) :=
  guardRange_ok (drawSprite x y n) (h.imp_left (congrArg BitVec.toNat))

/-- A sprite of DRW has at most 15 rows, few enough that no cell is toggled twice. -/
theorem drw_rows_le (n : Nibble) : n.toNat ≤ 32 := by omega

/-- A draw inverts a cell of the grid exactly when the sprite covers it. -/
theorem drawSprite_inverts (x y n : Nibble) (s : State) {cx cy : Nat} (hx : cx < 64) (hy : cy < 32) :
    ((drawSprite x y n s).fb[cy])[cx] = (!(s.fb[cy])[cx]) ↔ s.drwCovers x y n cx cy := by
  rw [← fbGet_of_lt _ cx cy hx hy, ← fbGet_of_lt _ cx cy hx hy]
  exact (blitSprite_spec _ _ _ _ _ _ (drw_rows_le n)).1 cx hx cy hy

/-- The flag of a condition is 1 exactly when it holds. -/
theorem flagOf_eq_one_iff {c : Bool} : flagOf c = 1 ↔ c = true := by cases c <;> simp [flagOf]

/-- A draw leaves 0 or 1 in VF. -/
theorem drawSprite_vf_zero_or_one (x y n : Nibble) (s : State) :
    (drawSprite x y n s).readV vf = 0 ∨ (drawSprite x y n s).readV vf = 1 := by
  simp only [drawSprite, State.writeFb_readV, State.readV_writeV_same]
  exact flagOf_eq _

/-- A draw leaves 1 in VF exactly when the sprite covers a cell that was on. -/
theorem drawSprite_vf_eq_one_iff (x y n : Nibble) (s : State) :
    (drawSprite x y n s).readV vf = 1 ↔
      ∃ (cx cy : Nat) (_ : cx < 64) (_ : cy < 32), (s.fb[cy])[cx] = true ∧ s.drwCovers x y n cx cy := by
  have hspec := (blitSprite_spec s.mem s.i.toNat n.toNat (s.readV x).toNat (s.readV y).toNat s.fb (drw_rows_le n)).2
  simp only [drawSprite, State.writeFb_readV, State.readV_writeV_same, flagOf_eq_one_iff, hspec]
  constructor
  · rintro ⟨cx, hx, cy, hy, hcov, hon⟩
    exact ⟨cx, cy, hx, hy, fbGet_of_lt s.fb cx cy hx hy ▸ hon, hcov⟩
  · rintro ⟨cx, cy, hx, hy, hon, hcov⟩
    exact ⟨cx, hx, cy, hy, hcov, (fbGet_of_lt s.fb cx cy hx hy).trans hon⟩

/-- Settles O43: the frame is `drawSprite_writes`, and each cell is `drawSprite_inverts`. -/
theorem drwInvertsCoveredCells : Obligations.DrwInvertsCoveredCells := by
  intro x y n s hrange
  exact ⟨_, exec_drw_ok hrange, drawSprite_writes x y n s, fun cx cy hx hy => drawSprite_inverts x y n s hx hy⟩

/-- Settles O44: VF holds a flag, and `drawSprite_vf_eq_one_iff` says when it is 1. -/
theorem drwCollisionFlag : Obligations.DrwCollisionFlag := by
  intro x y n s hrange
  exact ⟨_, exec_drw_ok hrange, drawSprite_vf_zero_or_one x y n s, drawSprite_vf_eq_one_iff x y n s⟩

/-! ### The same DRW twice -/

@[simp] theorem drawSprite_i (x y n : Nibble) (s : State) : (drawSprite x y n s).i = s.i := rfl
@[simp] theorem drawSprite_mem (x y n : Nibble) (s : State) : (drawSprite x y n s).mem = s.mem := rfl

/-- A draw keeps every register but VF. -/
theorem drawSprite_readV_of_ne {x y n z : Nibble} (s : State) (hz : z ≠ 15) :
    (drawSprite x y n s).readV z = s.readV z :=
  State.readV_writeV_ne _ _ hz

/-- With its origin apart from VF, a draw keeps the operands of the same draw, and so the cells its sprite covers
(44_display.md R155). -/
theorem drwCovers_drawSprite {x y n : Nibble} {s : State} {cx cy : Nat} (hx : x ≠ 15) (hy : y ≠ 15) :
    (drawSprite x y n s).drwCovers x y n cx cy ↔ s.drwCovers x y n cx cy := by
  simp only [State.drwCovers, drawSprite_mem, drawSprite_i, drawSprite_readV_of_ne s hx, drawSprite_readV_of_ne s hy]

/-- A bit inverted both times or neither time is as it was. -/
theorem eq_of_inverted_alike : ∀ {a b c : Bool}, (b = (!a) ↔ c = (!b)) → c = a := by decide

/-- The same draw twice, with its origin apart from VF, restores the framebuffer. -/
theorem drawSprite_drawSprite_fb {x y n : Nibble} (s : State) (hx : x ≠ 15) (hy : y ≠ 15) :
    (drawSprite x y n (drawSprite x y n s)).fb = s.fb := by
  apply Vector.ext
  intro cy hcy
  apply Vector.ext
  intro cx hcx
  have hfirst := drawSprite_inverts x y n s hcx hcy
  have hsecond := drawSprite_inverts x y n (drawSprite x y n s) hcx hcy
  rw [drwCovers_drawSprite hx hy] at hsecond
  exact eq_of_inverted_alike (hfirst.trans hsecond.symm)

/-- A covered cell is on after a draw exactly when it was off before. -/
theorem drawSprite_on_and_covered_iff {x y n : Nibble} {s : State} {cx cy : Nat} (hx : cx < 64) (hy : cy < 32) :
    ((drawSprite x y n s).fb[cy])[cx] = true ∧ s.drwCovers x y n cx cy ↔
      (s.fb[cy])[cx] = false ∧ s.drwCovers x y n cx cy := by
  refine and_congr_left fun hcov => ?_
  rw [(drawSprite_inverts x y n s hx hy).2 hcov, Bool.not_eq_true']

/-- Settles O45: the second draw covers the cells of the first, finds them inverted and inverts them back. -/
theorem drwTwiceRestoresScreen : Obligations.DrwTwiceRestoresScreen := by
  intro x y n s hx hy hrange
  refine ⟨_, _, exec_drw_ok hrange, exec_drw_ok hrange, drawSprite_drawSprite_fb s hx hy, ?_⟩
  refine (drawSprite_vf_eq_one_iff x y n (drawSprite x y n s)).trans ?_
  refine exists₂_congr fun cx cy => exists₂_congr fun hcx hcy => ?_
  rw [drwCovers_drawSprite hx hy]
  exact drawSprite_on_and_covered_iff hcx hcy

end Sys2Proof.Machine
end

section
/-! The timers and the keypad (45_timers_keypad.md): the timer moves, the two key tests, and the key wait. -/

namespace Sys2Proof.Machine

open Sys2Proof

/-! ### The timer moves -/

/-- Settles O46: a timer move has no check, and its effect is one write of V[x], DT or ST. -/
theorem timerMoves : Obligations.TimerMoves :=
  fun _ _ => ⟨exec_ok rfl, exec_ok rfl, exec_ok rfl⟩

/-! ### The key tests -/

/-- A key test when V[x] names the key k (45_timers_keypad.md R160, R161). -/
theorem skipOnKey_of_key {x : Nibble} {want : Bool} {s : State} {k : Fin 16} (h : (s.readV x).toNat = k.val) :
    skipOnKey x want s = .next (s.skipIf (s.keys[k] == want)) := by
  rw [skipOnKey_ok (h ▸ k.isLt)]
  simp only [h, Fin.getElem_fin]

/-- A skip when a condition holds. -/
theorem skipIf_beq_true (s : State) (c : Bool) :
    s.skipIf (c == true) = { s with pc := if c = true then s.pc + 2 else s.pc } := by
  cases c <;> rfl

/-- A skip when a condition fails. -/
theorem skipIf_beq_false (s : State) (c : Bool) :
    s.skipIf (c == false) = { s with pc := if c = true then s.pc else s.pc + 2 } := by
  cases c <;> rfl

/-- Settles O47: both are the key test of `skipOnKey_of_key`, SKP for a pressed key and SKNP for a released one. -/
theorem keySkipsTestTheirKey : Obligations.KeySkipsTestTheirKey := by
  intro x s k hk
  rw [← skipIf_beq_true, ← skipIf_beq_false]
  exact ⟨skipOnKey_of_key hk, skipOnKey_of_key hk⟩

/-! ### The key wait -/

/-- The converse of `lowestKey_eq_some`: the answer is neither above nor below k, since both are pressed and no key
below either is. -/
theorem lowestKey_of_lowest {keys : Keys} {k : Fin 16} (hk : keys[k] = true)
    (hlow : ∀ j : Fin 16, j < k → keys[j] = false) : lowestKey keys = some k := by
  cases h : lowestKey keys with
  | none => simp [lowestKey_eq_none.1 h k] at hk
  | some i =>
    obtain ⟨hi, hilow⟩ := lowestKey_eq_some h
    have hki : ¬ k < i := fun hlt => by simp [hilow k hlt] at hk
    have hik : ¬ i < k := fun hlt => by simp [hlow i hlt] at hi
    exact congrArg some (le_antisymm (not_lt.1 hki) (not_lt.1 hik))

/-- LD Vx, K with a lowest pressed key stores its number in V[x] (45_timers_keypad.md R163, D13). -/
theorem exec_ldVxK_pressed {x : Nibble} {s : State} {k : Fin 16} (h : lowestKey s.keys = some k) :
    exec (.ldVxK x) s = .next (s.writeV x (BitVec.ofNat 8 k.val)) := by
  simp only [exec, execLdVxK, h]

/-- LD Vx, K with no key pressed moves PC back to its own address (45_timers_keypad.md R163, log 18). -/
theorem exec_ldVxK_waits {x : Nibble} {s : State} (h : lowestKey s.keys = none) :
    exec (.ldVxK x) s = .next (s.writePc (s.pc - 2)) := by
  simp only [exec, execLdVxK, h]

/-- Settles O48: the two clauses are the two answers of `lowestKey`. -/
theorem keyWaitTakesLowestOrRepeats : Obligations.KeyWaitTakesLowestOrRepeats :=
  fun _ _ => ⟨fun _ hk hlow => exec_ldVxK_pressed (lowestKey_of_lowest hk hlow),
    fun hnone => exec_ldVxK_waits (lowestKey_eq_none.2 hnone)⟩

end Sys2Proof.Machine
end

section
/-! The exceptions and the external events between cycles (60_exceptions.md): what a fault of a cycle leaves, the words
and the accesses that raise one, and the ticks, key changes and reads of the drivers. -/

namespace Sys2Proof.Machine

open Sys2Proof

/-! ### What a fault leaves -/

/-- A fault raised after a fetch names the address the instruction was fetched from (40_dispatcher.md R97). -/
theorem fetched_raise (s : State) (c : FaultCause) : s.fetched.raise c = s.fetched.latchFault s.pc c := by
  have hpc : s.pc + 2 - 2 = s.pc := by bv_omega
  rw [State.raise, State.fetched_pc, hpc]

/-- A latched fault names the address it was latched with, and its record is all that has changed. -/
theorem latchFault_record {s t : State} {pc0 : Word} {c : FaultCause} {r : FaultRecord} (h : t = s.latchFault pc0 c)
    (hr : t.fault = some r) : r.pc0 = pc0 ∧ t = { s with fault := some r } := by
  subst h
  cases hr
  exact ⟨rfl, rfl⟩

/-- An instruction that ends with a record it did not begin with has raised a fault and done nothing else. -/
theorem exec_raises {i : Instr} {s t : State} {r : FaultRecord} (hrun : s.running) (h : exec i s = .next t)
    (hr : t.fault = some r) : ∃ c, t = s.raise c := by
  rcases exec_cases h with ⟨-, rfl⟩ | ⟨c, -, ht⟩
  · rw [effectOf_fault, hrun] at hr
    cases hr
  · exact ⟨c, ht⟩

/-- A cycle that faults has latched its fault at the old PC, in the state of a failed fetch or of a completed one. -/
theorem cycle_latches {s t : State} {r : FaultRecord} (h : cycle s = .next t) (hr : t.fault = some r) :
    (4095 ≤ s.pc.toNat ∧ ∃ c, t = s.latchFault s.pc c) ∨ (s.fetchable ∧ ∃ c, t = s.fetched.latchFault s.pc c) := by
  obtain ⟨hrun, ⟨hpc, ht⟩ | ⟨hf, -, ht⟩ | ⟨hf, i, -, hx⟩⟩ := cycle_cases h
  · exact .inl ⟨hpc, _, ht⟩
  · exact .inr ⟨hf, _, ht.trans (fetched_raise ..)⟩
  · obtain ⟨c, ht⟩ := exec_raises (s := s.fetched) hrun hx hr
    exact .inr ⟨hf, c, ht.trans (fetched_raise ..)⟩

/-- Settles O14: by `cycle_latches` the fault is latched over the old state or over what the fetch left. -/
theorem faultsLeaveOnlyTheFetch : Obligations.FaultsLeaveOnlyTheFetch := by
  intro s t ts r _ hts hstep hr
  rw [step_cycleNext hts] at hstep
  rcases cycle_latches hstep hr with ⟨hpc, c, ht⟩ | ⟨hf, c, ht⟩
  · exact (latchFault_record ht hr).imp_right fun hframe => .inl ⟨hpc, hframe⟩
  · exact (latchFault_record ht hr).imp_right fun hframe => .inr ⟨hf, hframe⟩

/-! ### Unknown words -/

/-- A word that decodes to no operation, and SYS under SYS_MODE = fault, raise UnknownOpcode(IR) (R175). -/
theorem decodeAndExecute_unknown {s : State}
    (h : (∃ e, decode s.ir = .error e) ∨ (∃ nnn, decode s.ir = .ok (.sys nnn)) ∧ s.sysMode = .fault) :
    decodeAndExecute s = .next (s.raise (.unknownOpcode s.ir)) := by
  rcases h with ⟨e, he⟩ | ⟨⟨nnn, hsys⟩, hmode⟩
  · rw [decodeAndExecute, he]
  · rw [decodeAndExecute_of_decode hsys]
    exact exec_fault (if_pos hmode)

/-- Settles O12: IR holds the word at PC after the fetch, so `decodeAndExecute_unknown` raises the fault there. -/
theorem unknownWordsFault : Obligations.UnknownWordsFault := by
  intro s ts hrun hts hf hunknown
  calc step s
    _ = decodeAndExecute (s.beginCycle ts).fetched := step_fetched hrun hts hf
    _ = .next ((s.beginCycle ts).fetched.raise (.unknownOpcode s.nextWord)) := decodeAndExecute_unknown hunknown
    _ = .next ((s.beginCycle ts).fetched.latchFault s.pc (.unknownOpcode s.nextWord)) :=
      congrArg _ (fetched_raise (s.beginCycle ts) _)

/-! ### Bounds violations in the execute phase -/

/-- Settles O41: each is the failing check of its access, by `boundsCheck_fails` and `skipOnKey_fault`. -/
theorem boundsViolationsRecordLowestAddress : Obligations.BoundsViolationsRecordLowestAddress := by
  intro x y n s
  refine ⟨fun hn hout => ?_, fun hout => ⟨?_, ?_⟩, fun hkey => ⟨skipOnKey_fault hkey, skipOnKey_fault hkey⟩⟩
  · have hrows : n.toNat ≠ 0 := fun h => hn (BitVec.eq_of_toNat_eq h)
    exact exec_fault (boundsCheck_fails .sprite hrows hout)
  · exact exec_fault (boundsCheck_fails .store (Nat.succ_ne_zero _) (Nat.lt_succ_of_le hout))
  · exact exec_fault (boundsCheck_fails .load (Nat.succ_ne_zero _) (Nat.lt_succ_of_le hout))

/-! ### External events -/

/-- A step whose turn is an event that may happen has the event's effect and spends the turn (10_state.md R41). -/
theorem step_event {s : State} {e : Event} {ts : List Turn} (hts : s.turns = .external e :: ts)
    (hmay : e.mayHappen (s.writeTurns ts) = true) : step s = .next (applyEvent e (s.writeTurns ts)) :=
  (step_external hts).trans (takeEvent_ok hmay)

/-- Settles O5: a tick is `countDown` of both timers. -/
theorem tickCountsBothTimersDown : Obligations.TickCountsBothTimersDown :=
  fun s _ hts => ⟨_, step_event hts rfl, countDown_toNat s.dt, countDown_toNat s.st, rfl⟩

/-- Settles O6: the effect of `keys` is the write of K, and `sound` has none. -/
theorem keysAndSoundEvents : Obligations.KeysAndSoundEvents :=
  fun _ _ => ⟨fun _ hts => step_event hts rfl, fun hts => step_event hts rfl, rfl⟩

/-- Entry y × 64 + x of a display read is cell (x, y) (R186). -/
theorem display_getElem (s : State) {x y : Nat} (hx : x < 64) (hy : y < 32) :
    s.display[y * 64 + x] = (s.fb[y])[x] := by
  have hcol : (y * 64 + x) % 64 = x := by omega
  have hrow : (y * 64 + x) / 64 = y := by omega
  simp only [State.display, Vector.getElem_ofFn, hcol, hrow]
  exact fbGet_of_lt s.fb x y hx hy

/-- Settles O7: `display` has no effect, and `display_getElem` says what it returns. -/
theorem displayReadsRowMajor : Obligations.DisplayReadsRowMajor :=
  ⟨fun _ _ hts => step_event hts rfl, fun s _ _ hx hy => display_getElem s hx hy⟩

end Sys2Proof.Machine
end

section
/-! Reset, boot and hazards (70_reset_and_hazards.md): where a reset enters, what a load copies, the order of the boot,
that checks come before writes, and the stop point of a run. -/

namespace Sys2Proof.Machine

open Sys2Proof

/-! ### The boot order -/

/-- A boot may run into unlisted cycles only after a load (R205). -/
theorem bootOrder_nil {b : BootPhase} : bootOrder b [] = true ↔ b ≠ .constructed := by
  cases b <;> simp [bootOrder]

/-- A listed cycle comes only after a load, and from it on the boot is running (R205). -/
theorem bootOrder_cycle {b : BootPhase} {ts : List Turn} :
    bootOrder b (.cycle :: ts) = true ↔ b ≠ .constructed ∧ bootOrder .running ts = true := by
  cases b <;> simp [bootOrder]

/-- An ordered boot comes to a cycle, listed or not, only after a load, and the moves after it keep the order. -/
theorem bootOrder_of_cycleNext {s : State} {ts : List Turn} (hts : s.cycleNext ts)
    (hord : bootOrder s.boot s.turns = true) : s.boot ≠ .constructed ∧ bootOrder .running ts = true := by
  rcases hts with hts | ⟨hts, rfl⟩
  · exact bootOrder_cycle.1 (hts ▸ hord)
  · exact ⟨bootOrder_nil.1 (hts ▸ hord), rfl⟩

/-- An ordered boot comes to a load only while no image is accepted and no cycle has been invoked (R205). -/
theorem bootOrder_load {b : BootPhase} {image : List Byte} {ts : List Turn}
    (hord : bootOrder b (.external (.load image) :: ts) = true) : b = .constructed := by
  cases b with
  | constructed => rfl
  | loaded | running => cases hord

/-- Every event an ordered boot comes to may happen. -/
theorem mayHappen_of_bootOrder {e : Event} {s : State} {ts : List Turn}
    (hord : bootOrder s.boot (.external e :: ts) = true) : e.mayHappen s = true := by
  cases e with
  | load image => exact mayHappen_load.2 (bootOrder_load hord)
  | _ => rfl

/-- No event touches the coming moves. -/
theorem applyEvent_turns (e : Event) (s : State) : (applyEvent e s).turns = s.turns := by
  cases e with
  | load image =>
    simp only [applyEvent, State.loadImage]
    split <;> rfl
  | _ => rfl

/-- The phase of the boot after an event: a reset begins it again, a load ends its load step if the image fits, and no
other event touches it (R205). -/
def bootAfter (e : Event) (b : BootPhase) : BootPhase :=
  match e with
  | .reset _ => .constructed
  | .load image => if Config.programBase + image.length ≤ Config.memSize then .loaded else b
  | .tick | .keys _ | .display | .sound => b

/-- The phase an event leaves. -/
theorem applyEvent_boot (e : Event) (s : State) : (applyEvent e s).boot = bootAfter e s.boot := by
  cases e with
  | load image =>
    simp only [applyEvent, State.loadImage, bootAfter]
    split <;> rfl
  | _ => rfl

/-- The moves after an event of an ordered boot keep the order of the phase the event leaves (R205). -/
theorem bootOrder_bootAfter {e : Event} {b : BootPhase} {ts : List Turn}
    (hord : bootOrder b (.external e :: ts) = true) : bootOrder (bootAfter e b) ts = true := by
  cases e with
  | reset l => cases b <;> exact hord
  | load image =>
    obtain rfl := bootOrder_load hord
    exact hord
  | tick | keys k | display | sound =>
    cases b with
    | constructed => cases hord
    | loaded | running => exact hord

/-- A step whose move is a cycle leaves the boot running and the moves after the cycle. -/
theorem cycleNext_moves {s t : State} {ts : List Turn} (hts : s.cycleNext ts) (h : step s = .next t) :
    t.turns = ts ∧ t.boot = .running :=
  cycle_moves ((step_cycleNext hts).symm.trans h)

/-- Only a reset ends the phase `running`: in it no load may happen (R205). -/
theorem step_keeps_boot_running {s t : State} (hb : s.boot = .running) (h : step s = .next t) :
    t.boot = .running ∨ ∃ l ts, s.turns = .external (.reset l) :: ts := by
  obtain ⟨ts, hts, -⟩ | ⟨e, ts, hts, hmay, rfl⟩ := step_cases h
  · exact .inl (cycleNext_moves hts h).2
  · cases e with
    | reset l => exact .inr ⟨l, ts, hts⟩
    | load image => simp [mayHappen_load, hb] at hmay
    | tick | keys k | display | sound => exact .inl hb

/-- A step of an ordered boot leaves an ordered boot (R205). -/
theorem step_keeps_bootOrder {s t : State} (hord : bootOrder s.boot s.turns = true) (h : step s = .next t) :
    bootOrder t.boot t.turns = true := by
  obtain ⟨ts, hts, -⟩ | ⟨e, ts, hts, -, rfl⟩ := step_cases h
  · obtain ⟨hturns, hboot⟩ := cycleNext_moves hts h
    rw [hturns, hboot]
    exact (bootOrder_of_cycleNext hts hord).2
  · rw [hts] at hord
    rw [applyEvent_turns, applyEvent_boot]
    exact bootOrder_bootAfter hord

/-- The next move is a cycle, listed or not, or an external event. -/
theorem turns_cases (s : State) : (∃ ts, s.cycleNext ts) ∨ ∃ e ts, s.turns = .external e :: ts := by
  cases hts : s.turns with
  | nil => exact .inl ⟨[], .inr ⟨hts, rfl⟩⟩
  | cons u ts =>
    cases u with
    | cycle => exact .inl ⟨ts, .inl hts⟩
    | external e => exact .inr ⟨e, ts, rfl⟩

/-- An ordered boot never comes to a load that is no move: a cycle has no load, and an event of it may happen (R205). -/
theorem step_ne_loadAfterBoot {s : State} (hord : bootOrder s.boot s.turns = true) :
    step s ≠ .fault .loadAfterBoot := by
  rcases turns_cases s with ⟨ts, hts⟩ | ⟨e, ts, hts⟩
  · rcases everyCycleEndsOkOrFaulted.2 s ts hts with ⟨-, t, ht⟩ | ⟨r, -, hr⟩
    · simp [ht]
    · simp [hr]
  · rw [hts] at hord
    simp [step_event hts (mayHappen_of_bootOrder (s := s.writeTurns ts) hord)]

/-- Settles O60: a cycle leaves the phase `running`, which only a reset ends, and the moves after a cycle
or an event of an ordered boot keep the order, by `bootOrder_of_cycleNext` and `bootOrder_bootAfter`. -/
theorem bootOrderIsKept : Obligations.BootOrderIsKept :=
  ⟨fun _ _ _ hts h => (cycleNext_moves hts h).2, fun _ _ hb h => step_keeps_boot_running hb h,
    fun _ hord => ⟨fun _ h => step_keeps_bootOrder hord h, step_ne_loadAfterBoot hord,
      fun _ hts => (bootOrder_of_cycleNext hts hord).1⟩⟩

/-! ### The load of an image -/

/-- An image that fits is copied, and the boot has loaded (R203). -/
theorem loadImage_fits {image : List Byte} (s : State) (h : Config.programBase + image.length ≤ 4096) :
    s.loadImage image = (s.writeMem (Memory.writeBytes s.mem Config.programBase image)).writeBoot .loaded :=
  if_pos h

/-- An image that does not fit is rejected with no effect (R203). -/
theorem loadImage_rejected {image : List Byte} (s : State) (h : 4096 < Config.programBase + image.length) :
    s.loadImage image = s :=
  if_neg (Nat.not_le.2 h)

/-- A step whose turn is a load, while no image is accepted and no cycle has been invoked, is `State.loadImage`. -/
theorem step_load {s : State} {image : List Byte} {ts : List Turn} (hts : s.turns = .external (.load image) :: ts)
    (hb : s.boot = .constructed) : step s = .next ((s.writeTurns ts).loadImage image) :=
  step_event hts (mayHappen_load.2 hb)

/-- Settles O4: the three clauses are the two branches of `State.loadImage` and the load that may not happen. -/
theorem loadCopiesOrRejects : Obligations.LoadCopiesOrRejects := by
  intro s image ts hts
  refine ⟨fun hb hfit => ⟨Memory.writeBytes s.mem Config.programBase image, ?_, ?_⟩, fun hb hlong => ?_, fun hb => ?_⟩
  · rw [step_load hts hb, loadImage_fits _ hfit]
    rfl
  · exact fun a => Memory.read_writeBytes ..
  · rw [step_load hts hb, loadImage_rejected _ hlong]
    rfl
  · rw [step_external hts]
    exact takeEvent_refused hb

/-! ### Reset -/

/-- Settles O1: `State.construct` puts PC at PROGRAM_BASE and writes FONT_DATA from FONT_BASE up. -/
theorem resetEntersAtBaseWithFont : Obligations.ResetEntersAtBaseWithFont := by
  intro s l ts hts
  refine ⟨_, step_event hts rfl, rfl, rfl, rfl, fun j => ?_⟩
  have hj : j.val < l.fontData.toList.length := by simp
  calc Memory.read (Memory.writeBytes l.initM s.fontBase.val l.fontData.toList) (s.fontBase.val + j.val)
    _ = l.fontData.toList[j.val] := read_writeBytes_offset l.initM s.fontBase.val hj
    _ = l.fontData[j] := Vector.getElem_toList ..

/-! ### Checks before writes -/

/-- Settles O15: an instruction that ends with a record has only raised its fault, by `exec_raises`. -/
theorem checksComeBeforeWrites : Obligations.ChecksComeBeforeWrites := by
  intro i s t hrun h hstop
  obtain ⟨r, hr⟩ := Option.ne_none_iff_exists'.1 hstop
  obtain ⟨c, rfl⟩ := exec_raises hrun h hr
  rfl

/-! ### The stop point -/

/-- The word at a stop point is a jump, to the address in its low twelve bits. -/
theorem decode_nextWord_of_atStopPoint {s : State} (h : s.atStopPoint) :
    decode s.nextWord = .ok (.jp (nnnField s.nextWord)) := by
  obtain ⟨hpc, hword⟩ := h
  have hop : (opField s.nextWord).toNat = 0x1 := by rw [opField_toNat]; omega
  have hjp : s.nextWord = wordOf (.jp (nnnField s.nextWord)) 0 := eq_wordNnn hop
  exact (congrArg decode hjp).trans (decode_wordOf rfl 0)

/-- The jump at a stop point goes to its own address. -/
theorem target_of_atStopPoint {s : State} (h : s.atStopPoint) : zext12 (nnnField s.nextWord) = s.pc := by
  obtain ⟨hpc, hword⟩ := h
  apply BitVec.eq_of_toNat_eq
  rw [zext12, BitVec.toNat_setWidth, nnnField_toNat]
  omega

/-- Settles O59: the cycle runs the jump to its own address, which writes back the PC it was fetched from. -/
theorem stopPointIsStable : Obligations.StopPointIsStable := by
  intro s ts hrun hts hstop
  refine ⟨_, ?_, rfl, hstop⟩
  rw [stepRunsDecodedInstruction s ts _ hrun hts hstop.1 (decode_nextWord_of_atStopPoint hstop), exec_ok rfl]
  simp only [effectOf, target_of_atStopPoint hstop]
  rfl

end Sys2Proof.Machine
end
